-- ==== Sys2Proof/Word.lean ====
section
/-! DEFINITION. The words of the bedrock CORE: the 16-bit Word, the byte of the console and the backing stores,
the 4-bit instruction field, the 32-bit value of the wide arithmetic (spec/00_scope.md R6, R8). -/

namespace Sys2Proof

/-- "the 16-bit unit of storage/address/value" (R6 WORD_BITS, R15). -/
abbrev Word := BitVec 16

/-- A byte of a backing store or of the console (R65). -/
abbrev Byte := BitVec 8

/-- A 4-bit instruction field (R81): a register index, a literal, or ignored. -/
abbrev Nibble := BitVec 4

/-- The 32-bit value the four arithmetic instructions compute in (R145). -/
abbrev Wide := BitVec 32

end Sys2Proof
end

