-- ==== Sys2Proof/Syntax.lean ====
section
/-! DEFINITION. The instructions: one constructor per row of spec/opcode_table.json, in the table's order. -/

namespace Sys2Proof

/-- One instruction (spec/30_encoding.md R85). Every instruction has the three 4-bit fields of the one format (R81);
a field its opcode ignores is kept, because decoding loses no bit of the word (R82, R84). A field is a register index
unless its constructor's line says otherwise. -/
inductive Instr where
  /-- 0: conditional jump with link; `src1` condition, `src0` target (R110). -/
  | jump (dst src1 src0 : Nibble)
  /-- 1: `src1`, `src0` ignored (R120). -/
  | readOverflow (dst src1 src0 : Nibble)
  /-- 2: `src1`, `src0` literals, the halves of the 8-bit immediate (R121). -/
  | set (dst src1 src0 : Nibble)
  /-- 3: `src0` address; `src1` ignored (R130). -/
  | load (dst src1 src0 : Nibble)
  /-- 4: `src1` value, `src0` address; `dst` ignored (R131). -/
  | store (dst src1 src0 : Nibble)
  /-- 5 (R140). -/
  | add (dst src1 src0 : Nibble)
  /-- 6: `src0` minuend, `src1` subtrahend (R141). -/
  | subtract (dst src1 src0 : Nibble)
  /-- 7 (R142). -/
  | multiply (dst src1 src0 : Nibble)
  /-- 8: `src0` dividend, `src1` divisor (R143). -/
  | divide (dst src1 src0 : Nibble)
  /-- 9: `src1` the literal shift amount (R160). -/
  | shiftLeft (dst src1 src0 : Nibble)
  /-- 10: `src1` the literal shift amount (R161). -/
  | shiftRight (dst src1 src0 : Nibble)
  /-- 11 (R170). -/
  | logicAnd (dst src1 src0 : Nibble)
  /-- 12 (R171). -/
  | logicOr (dst src1 src0 : Nibble)
  /-- 13: `src1` ignored (R172). -/
  | logicNot (dst src1 src0 : Nibble)
  /-- 14: `src0` port number; `src1` ignored (R180). -/
  | busRead (dst src1 src0 : Nibble)
  /-- 15: `src1` value, `src0` port number; `dst` ignored (R181). -/
  | busWrite (dst src1 src0 : Nibble)
  deriving DecidableEq, Repr

end Sys2Proof
end

