-- ==== Sys2Proof/Decode.lean ====
section
/-! DEFINITION. The decoder and the encoder (spec/30_encoding.md R80 to R86). Every Word is one instruction, so the
decoder is total and there is nothing to reject ("Never fails", R82, R86). -/

namespace Sys2Proof

/-- The four fields of a Word (R81). -/
structure Fields where
  opcode : Nibble
  dst : Nibble
  src1 : Nibble
  src0 : Nibble
  deriving DecidableEq, Repr

/-- `Decode` of R81: the layout the spec's D1 picks, opcode in the top nibble (log 11). -/
def decodeFields (w : Word) : Fields :=
  ⟨w.extractLsb' 12 4, w.extractLsb' 8 4, w.extractLsb' 4 4, w.extractLsb' 0 4⟩

/-- `Encode` of R82: `opcode ++ dst ++ src1 ++ src0`. -/
def encodeFields (f : Fields) : Word := f.opcode ++ f.dst ++ f.src1 ++ f.src0

/-- `OPCODE_MAP`: the operation of each opcode value, in the order of R85 (the spec's D2, log 11). -/
def opcodeMap : Vector (Nibble → Nibble → Nibble → Instr) 16 :=
  #v[.jump, .readOverflow, .set, .load, .store, .add, .subtract, .multiply,
     .divide, .shiftLeft, .shiftRight, .logicAnd, .logicOr, .logicNot, .busRead, .busWrite]

/-- The instruction that four fields name (R85, R101). -/
def Fields.toInstr (f : Fields) : Instr :=
  (opcodeMap[f.opcode.toNat]'f.opcode.isLt) f.dst f.src1 f.src0

/-- The four fields of an instruction: the opcode numbers of R85 written constructor by constructor. -/
def Instr.toFields : Instr → Fields
  | .jump d b a => ⟨0x0#4, d, b, a⟩
  | .readOverflow d b a => ⟨0x1#4, d, b, a⟩
  | .set d b a => ⟨0x2#4, d, b, a⟩
  | .load d b a => ⟨0x3#4, d, b, a⟩
  | .store d b a => ⟨0x4#4, d, b, a⟩
  | .add d b a => ⟨0x5#4, d, b, a⟩
  | .subtract d b a => ⟨0x6#4, d, b, a⟩
  | .multiply d b a => ⟨0x7#4, d, b, a⟩
  | .divide d b a => ⟨0x8#4, d, b, a⟩
  | .shiftLeft d b a => ⟨0x9#4, d, b, a⟩
  | .shiftRight d b a => ⟨0xA#4, d, b, a⟩
  | .logicAnd d b a => ⟨0xB#4, d, b, a⟩
  | .logicOr d b a => ⟨0xC#4, d, b, a⟩
  | .logicNot d b a => ⟨0xD#4, d, b, a⟩
  | .busRead d b a => ⟨0xE#4, d, b, a⟩
  | .busWrite d b a => ⟨0xF#4, d, b, a⟩

/-- The instruction a Word is (R82, R86). -/
def decode (w : Word) : Instr := (decodeFields w).toInstr

/-- The Word of an instruction (R82, R85). -/
def encode (i : Instr) : Word := encodeFields i.toFields

/-- The decoder's reading of the instruction whose `nbits` bits are `w`, numbered as spec/opcode_table.json numbers
them. An instruction is one Word of 16 bits (R80), so a longer row is refused. -/
def decodeTableWord (nbits w : Nat) : Option Instr :=
  if nbits ≤ 16 then some (decode (BitVec.ofNat 16 (w % 2 ^ nbits))) else none

end Sys2Proof
end

