-- ==== Sys2Proof/Config.lean ====
section
/-! DEFINITION. What is fixed for one machine: the constants of spec/00_scope.md R6, the parameters of R7
(the ones read during a run in `Params`, the ones only reset reads in `Launch`), and the model's one free value. -/

namespace Sys2Proof

/-- The two controller slots (R29, D9). -/
inductive DiskId where
  | A
  | B
  deriving DecidableEq, Repr

/-- The four ports of one controller slot, as port numbers (R187). -/
structure DiskPorts where
  blockCount : Word
  selectedBlock : Word
  transferAddress : Word
  operation : Word
  deriving DecidableEq, Repr

/-- `PORT_MAP`: the number of each of the ten ports (R7, R187). -/
structure PortMap where
  console : Word
  halt : Word
  diskA : DiskPorts
  diskB : DiskPorts
  deriving DecidableEq, Repr

/-- The parameters of R7 that the machine reads while it runs. R13 calls them "not state": no step changes them
(DESIGN CHOICE, safe, log 1). `FIRMWARE_SIZE` is the length of `firmware`. -/
structure Params where
  /-- `FIRMWARE`: the read-only Words at addresses 0 to N - 1 (R53). -/
  firmware : List Word
  /-- `PORT_MAP` (R187). -/
  portMap : PortMap
  /-- `CONSOLE_INPUT`: the bytes before end-of-stream (R190, D11). -/
  consoleInput : List Byte
  /-- `STORE_FAIL`: the oracle's answers, first question first. `true` says the transfer fails; past the end of the
  list none fails (R224, D20; DESIGN CHOICE, safe, log 2). -/
  storeFail : List Bool
  deriving DecidableEq, Repr

/-- Everything the host presents at reset over `IF_CONFIG` (R11, R261). -/
structure Launch where
  params : Params
  /-- `INIT_IMAGE`, placed from the first mutable cell upward (R263). -/
  initImage : List Word
  /-- `STORE[A]`: absent, or the backing store's bytes (R211). -/
  storeA : Option (List Byte)
  /-- `STORE[B]`. -/
  storeB : Option (List Byte)
  deriving DecidableEq, Repr

/-- `FIRMWARE_SIZE`, written N (R7, R53). -/
def Params.firmwareSize (p : Params) : Nat := p.firmware.length

/-- `ADDR_SPACE`: the number of word addresses (R6). -/
def Config.addrSpace : Nat := 65536

/-- `BLOCK_BYTES` (R6, R210). -/
def Config.blockBytes : Nat := 512

/-- `BLOCK_WORDS` (R6, R210). -/
def Config.blockWords : Nat := 256

/-- `BLOCK_COUNT_CAP` (R6, R211). -/
def Config.blockCountCap : Nat := 0xFFFF

/-- `DIV0_RESULT` (R6, R143). -/
def Config.div0Result : Wide := 0xFFFFFFFF#32

/-- FREE VALUE (R225, D30; safe, log 3): whether cell `i` of the failing transfer number `n` had already taken its
new value when the backing store failed. "each is either its old or its new value, and a model must not assume which". -/
opaque Config.cellLanded (n i : Nat) : Bool

end Sys2Proof
end

