-- ==== Sys2Proof/Machine/Decided.lean ====
section
/-! DEFINITION. Points the source leaves open and spec/92_eei_decisions.md decides, each a named definition as that
file asks, and the default launch of spec/00_scope.md R7. -/

namespace Sys2Proof

/-- `CONSOLE_EOF` (R191, D10, log 18). -/
def Config.consoleEof : Word := 0xFFFF#16

/-- `REG_RESET`: every general register after reset (R34, D16, log 5). -/
def Config.regReset : Word := 0x0000#16

/-- `OV_RESET` (R34, D16, log 5). -/
def Config.ovReset : Word := 0x0000#16

/-- `selected_block` of a slot after reset (R211, D16, log 5). -/
def Config.selectedBlockReset : Word := 0x0000#16

/-- `transfer_address` of a slot after reset (R211, D16, log 5). -/
def Config.transferAddressReset : Word := 0x0000#16

/-- What a mutable cell that nothing has written holds (R34, R263, D17, log 6). -/
def Config.memReset : Word := 0x0000#16

/-- `pc` after reset: "program counter = 0" (R34). -/
def Config.pcReset : Word := 0x0000#16

/-- What a port read returns that the bus does not recognise, and a read the port table marks "—"
(R188; R189, D8, log 17). -/
def Config.defaultPortRead : Word := 0x0000#16

/-- The operation-port value that triggers read-block (R216). -/
def Config.opReadBlock : Word := 0x0000#16

/-- The operation-port value that triggers write-block (R216). -/
def Config.opWriteBlock : Word := 0x0001#16

/-- The default `PORT_MAP` of R7, the numbers being the spec's own (D7, log 16). -/
def PortMap.default : PortMap where
  console := 0#16
  halt := 1#16
  diskA := ⟨2#16, 3#16, 4#16, 5#16⟩
  diskB := ⟨6#16, 7#16, 8#16, 9#16⟩

/-- The default launch of R7: no firmware, no image, no backing store, no console input, an oracle that never fails
(log 7). -/
def Launch.default : Launch where
  params := { firmware := [], portMap := PortMap.default, consoleInput := [], storeFail := [] }
  initImage := []
  storeA := none
  storeB := none

end Sys2Proof
end

