-- ==== Sys2Proof/Machine/Disk.lean ====
section
/-! DEFINITION. One controller slot and its attach (spec/10_state.md R29, R30; spec/48_block_storage.md R210, R211). -/

namespace Sys2Proof.Machine

/-- A controller slot `disk[d]` (R29). -/
structure Disk where
  /-- A backing store was attached at reset. -/
  attached : Bool
  /-- How many whole blocks the store has, capped (R211). -/
  blockCount : Word
  /-- The block index the next operation uses (R214). -/
  selectedBlock : Word
  /-- The memory word address the next operation uses (R215). -/
  transferAddress : Word
  /-- The backing store's bytes, of a length that never changes (R30); none when inert. -/
  store : List Byte
  deriving DecidableEq, Repr

/-- `min(floor(S / 512), 0xFFFF)` of a store of `S` bytes (R211). -/
def Disk.countOf (size : Nat) : Word :=
  BitVec.ofNat 16 (min (size / Config.blockBytes) Config.blockCountCap)

/-- `Attach(d)` of R211; an absent store leaves the slot inert. -/
def Disk.attach : Option (List Byte) → Disk
  | some bytes =>
    { attached := true, blockCount := Disk.countOf bytes.length,
      selectedBlock := Config.selectedBlockReset, transferAddress := Config.transferAddressReset, store := bytes }
  | none =>
    { attached := false, blockCount := 0#16,
      selectedBlock := Config.selectedBlockReset, transferAddress := Config.transferAddressReset, store := [] }

/-- The byte at an offset of the store. An offset past the end is reached in no state of a run (R222 "The store never
grows"; log 26). -/
def Disk.byteAt (k : Disk) (offset : Nat) : Byte := k.store.getD offset 0#8

/-- The byte offset of the selected block, not truncated to 16 bits (R221). -/
def Disk.base (k : Disk) : Nat := k.selectedBlock.toNat * Config.blockBytes

/-- Word `i` of the selected block: two bytes, the high byte first (R210). -/
def Disk.blockWord (k : Disk) (i : Nat) : Word :=
  k.byteAt (k.base + 2 * i) ++ k.byteAt (k.base + 2 * i + 1)

/-- The operation the selected block can take is in range (R217). -/
def Disk.inRange (k : Disk) : Bool := k.selectedBlock < k.blockCount

/-- What attach leaves and no step changes (R211, R213): the count fits the store, and an inert slot is all zeros. -/
abbrev Disk.wf (k : Disk) : Prop :=
  if k.attached then k.blockCount = Disk.countOf k.store.length
  else k.blockCount = 0#16 ∧ k.selectedBlock = Config.selectedBlockReset ∧
    k.transferAddress = Config.transferAddressReset ∧ k.store = []

end Sys2Proof.Machine
end

