-- ==== Sys2Proof/Machine/Memory.lean ====
section
/-! DEFINITION. The mutable memory `mut` (spec/20_memory.md R53): Words by cell index, as a list of (cell, Word) pairs
in one canonical form. Cell `c` is address `N + c`. A cell the list does not name holds `Config.memReset`. -/

namespace Sys2Proof.Machine

/-- The mutable array: the pairs of a cell index and its Word. The unit is the 16-bit Word, for memory has no bytes
(R51; log 4). -/
abbrev Memory := List (Nat × Word)

/-- The Word in cell `c`. -/
def Memory.read : Memory → Nat → Word
  | [], _ => Config.memReset
  | (b, w) :: m, c => if b = c then w else Memory.read m c

/-- `m` without cell `c`. -/
def Memory.erase (m : Memory) (c : Nat) : Memory := m.filter (fun e => e.1 ≠ c)

/-- `m` with the pair `(c, v)` put before the first greater cell. -/
def Memory.insert : Memory → Nat → Word → Memory
  | [], c, v => [(c, v)]
  | (b, w) :: m, c, v => if c < b then (c, v) :: (b, w) :: m else (b, w) :: Memory.insert m c v

/-- `mut[c] <- v`. A cell that holds what an unlisted cell reads as is not listed, so equal memories are equal lists. -/
def Memory.write (m : Memory) (c : Nat) (v : Word) : Memory :=
  if v = Config.memReset then m.erase c else (m.erase c).insert c v

/-- The memory whose cells from `c` upward hold the Words of a list (R263). -/
def Memory.ofWordsFrom : Nat → List Word → Memory
  | _, [] => []
  | c, w :: ws =>
    if w = Config.memReset then Memory.ofWordsFrom (c + 1) ws else (c, w) :: Memory.ofWordsFrom (c + 1) ws

/-- The memory after reset: `INIT_IMAGE` from cell 0 (R263). -/
def Memory.ofImage (image : List Word) : Memory := Memory.ofWordsFrom 0 image

/-- The canonical form: cells strictly rising, none listed that holds what an unlisted cell reads as. -/
abbrev Memory.wf (m : Memory) : Prop :=
  m.Pairwise (fun x y => x.1 < y.1) ∧ ∀ e ∈ m, e.2 ≠ Config.memReset

end Sys2Proof.Machine
end

