-- ==== Sys2Proof/WellFormed.lean ====
section
/-! DEFINITION. What is well formed: every instruction (spec/30_encoding.md R86), and a launch that meets the
`require` lines of the reset sequence (spec/70_reset_and_hazards.md R261). -/

namespace Sys2Proof

/-- Every instruction is well formed: all sixteen opcodes are assigned and every value of every field is legal (R20,
R86). There is no check, because `Nibble` admits no other field. -/
def Instr.wellFormed : Instr → Bool
  | .jump _ _ _ => true
  | .readOverflow _ _ _ => true
  | .set _ _ _ => true
  | .load _ _ _ => true
  | .store _ _ _ => true
  | .add _ _ _ => true
  | .subtract _ _ _ => true
  | .multiply _ _ _ => true
  | .divide _ _ _ => true
  | .shiftLeft _ _ _ => true
  | .shiftRight _ _ _ => true
  | .logicAnd _ _ _ => true
  | .logicOr _ _ _ => true
  | .logicNot _ _ _ => true
  | .busRead _ _ _ => true
  | .busWrite _ _ _ => true

/-- The ten port numbers, in the order of R187. -/
def PortMap.numbers (m : PortMap) : List Word :=
  [m.console, m.halt,
   m.diskA.blockCount, m.diskA.selectedBlock, m.diskA.transferAddress, m.diskA.operation,
   m.diskB.blockCount, m.diskB.selectedBlock, m.diskB.transferAddress, m.diskB.operation]

/-- "no two names share a number" (R187, D32). -/
abbrev PortMap.Injective (m : PortMap) : Prop := m.numbers.Nodup

/-- "0 <= FIRMWARE_SIZE <= 65536"; that the firmware has FIRMWARE_SIZE Words holds by construction (R261). -/
abbrev Params.FirmwareFits (p : Params) : Prop := p.firmwareSize ≤ Config.addrSpace

/-- "len(INIT_IMAGE) <= 65536 - FIRMWARE_SIZE" (R261). -/
abbrev Launch.ImageFits (l : Launch) : Prop :=
  l.initImage.length ≤ Config.addrSpace - l.params.firmwareSize

/-- The `require` lines of R261. -/
abbrev Launch.Valid (l : Launch) : Prop :=
  l.params.FirmwareFits ∧ l.ImageFits ∧ l.params.portMap.Injective

end Sys2Proof
end

