-- ==== Sys2Proof/Machine/State.lean ====
section
/-! DEFINITION. The machine state (spec/10_state.md R20 to R34), why a step can stop, and reset
(spec/70_reset_and_hazards.md R261). -/

namespace Sys2Proof.Machine

/-- The reasons of `raise Fatal`, names without codes (spec/60_exceptions.md R241). -/
inductive FatalReason where
  /-- The backing-store transfer of an in-range block operation failed (R224). -/
  | storeIO
  /-- Only under a partial `OPCODE_MAP`; never in this hardware (R242, D3, log 24). -/
  | decodeError
  deriving DecidableEq, Repr

/-- The run state `run` (R27). -/
inductive RunState where
  | running
  | halted
  | fatal (reason : FatalReason)
  deriving DecidableEq, Repr

/-- Everything the CORE holds between two steps (R13, R33), the run's parameters (log 1), and the model's count of
STORE_FAIL questions (log 2). -/
structure State where
  /-- The parameters of R7; no step changes them. -/
  params : Params
  /-- `x[0]` to `x[15]` (R20). -/
  regs : Vector Word 16
  /-- The overflow register (R23). -/
  ov : Word
  /-- The program counter, a word address (R25). -/
  pc : Word
  /-- The run state (R27). -/
  run : RunState
  /-- The mutable memory (R28). -/
  mem : Memory
  /-- Controller slot A (R29). -/
  diskA : Disk
  /-- Controller slot B (R29). -/
  diskB : Disk
  /-- How many bytes of `CONSOLE_INPUT` were consumed (R31). -/
  conInPos : Nat
  /-- The bytes console writes emitted, oldest first (R31). -/
  conOut : List Byte
  /-- How many questions STORE_FAIL was asked: the model's own field (R224, log 2). -/
  storeOps : Nat
  deriving DecidableEq, Repr

/-- Why a step stops. No instruction faults (R240): `raise Fatal` is a next state whose `run` is fatal. -/
inductive Fault where
  /-- Raised by `step` in a state with `run = halted`: no step is enabled (R102). Safe (log 9). -/
  | halted
  /-- Raised by `step` in a state with `run = fatal(reason)`: no step is enabled (R102). Safe (log 9). -/
  | fatal (reason : FatalReason)
  deriving DecidableEq, Repr

/-- Why an instruction has no meaning. No instruction of this model is refused. -/
inductive Refusal where
  /-- Raised by an arm of `exec` that has no meaning yet. Safe: the run stops. -/
  | notModelled (mnemonic : String)
  deriving DecidableEq, Repr

/-- What a meaning answers. -/
abbrev Result := Host.Outcome State Fault Refusal

/-- `Reset` of R261 on a launch: the construction of the machine state (R260). -/
def State.construct (l : Launch) : State where
  params := l.params
  regs := Vector.replicate 16 Config.regReset
  ov := Config.ovReset
  pc := Config.pcReset
  run := .running
  mem := Memory.ofImage l.initImage
  diskA := Disk.attach l.storeA
  diskB := Disk.attach l.storeB
  conInPos := 0
  conOut := []
  storeOps := 0

/-- Reset with its `require` lines: a launch that fails them "is not a machine: the model refuses it" (R264). -/
def State.boot (l : Launch) : Option State :=
  if l.Valid then some (State.construct l) else none

/-- The machine right after reset under the default launch of R7 (log 7). -/
def State.reset : State := State.construct Launch.default

end Sys2Proof.Machine
end

