-- ==== Sys2Proof/Machine/Ops.lean ====
section
/-! DEFINITION. The named operations over registers, memory, the program counter, the run state and the controller
slots, which every meaning is written with. -/

namespace Sys2Proof.Machine

/-- `x[i]`: every 4-bit field names a register and none is hard-wired (R20, R21). -/
def State.getReg (s : State) (i : Nibble) : Word := s.regs[i.toNat]'i.isLt

/-- `x[i] <- v` (R9). -/
def State.setReg (s : State) (i : Nibble) (v : Word) : State :=
  { s with regs := s.regs.set i.toNat v i.isLt }

/-- `ov <- v` (R9, R23). -/
def State.setOv (s : State) (v : Word) : State := { s with ov := v }

/-- `pc <- v` (R9). -/
def State.setPc (s : State) (v : Word) : State := { s with pc := v }

/-- `MemRead(a, 1)` (R55). -/
def State.memRead (s : State) (a : Word) : Word :=
  if h : a.toNat < s.params.firmware.length then s.params.firmware[a.toNat]
  else s.mem.read (a.toNat - s.params.firmwareSize)

/-- `MemWrite(a, 1, v)`: a write below FIRMWARE_SIZE is silently discarded (R56). -/
def State.memWrite (s : State) (a : Word) (v : Word) : State :=
  if a.toNat < s.params.firmwareSize then s
  else { s with mem := s.mem.write (a.toNat - s.params.firmwareSize) v }

/-- `raise Fatal(reason)`, the one exception of the hardware: it sets `run` and nothing else. Nothing is saved, no
handler is entered (R241), and there is no return from it (R245). -/
def State.raiseFatal (s : State) (reason : FatalReason) : State := { s with run := .fatal reason }

/-- The halt transition (R193). -/
def State.haltRun (s : State) : State := { s with run := .halted }

/-- `disk[d]` (R29). -/
def State.disk (s : State) : DiskId → Disk
  | .A => s.diskA
  | .B => s.diskB

/-- The state with slot `d` replaced. -/
def State.setDisk (s : State) : DiskId → Disk → State
  | .A, k => { s with diskA := k }
  | .B, k => { s with diskB := k }

/-- The fault with which `step` says that no step is enabled, none while `run = running` (R102, log 9). -/
def State.stopFault (s : State) : Option Fault :=
  match s.run with
  | .running => none
  | .halted => some .halted
  | .fatal reason => some (.fatal reason)

/-- The instruction at the program counter: the fetch goes through `MemRead` (R100). -/
def State.fetched (s : State) : Instr := decode (s.memRead s.pc)

/-- The state in which the fetched instruction executes: `pc` advanced by one Word, modulo 2^16 (R26, R100). -/
def State.advanced (s : State) : State := s.setPc (s.pc + 1#16)

/-- The firmware with Word `w` at address `a`, for an `a` below FIRMWARE_SIZE. -/
def Params.placeFirmware (p : Params) (a : Nat) (w : Word) : Params :=
  { p with firmware := p.firmware.set a w }

/-- The running state with Word `w` at the address of the next fetch, in the firmware where the program counter is
below FIRMWARE_SIZE (log 8). -/
def State.placeAtPc (s : State) (w : Word) : State :=
  let s := { s with run := .running }
  if s.pc.toNat < s.params.firmwareSize then { s with params := Params.placeFirmware s.params s.pc.toNat w }
  else s.memWrite s.pc w

end Sys2Proof.Machine
end

