-- ==== Sys2Proof/Machine/Operands.lean ====
section
/-! DEFINITION. The operand forms: the two literals and the four ways a register supplies an operand
(spec/30_encoding.md R83, spec/10_state.md R22, spec/44_arithmetic.md R144). -/

namespace Sys2Proof.Machine

/-- The 8-bit immediate of `set`, zero-extended: `zext_16(src1 ++ src0)` (R83, R121). -/
def imm8 (src1 src0 : Nibble) : Word := (src1 ++ src0 : BitVec 8).setWidth 16

/-- The shift amount: the literal 4-bit value of the `src1` field, 0 to 15 (R83, R160). -/
def shiftAmount (src1 : Nibble) : Nat := src1.toNat

/-- The left operand (augend, minuend, multiplicand, dividend) is `x[src0]` (R144, D4, log 10). -/
def State.leftOperand (s : State) (_src1 src0 : Nibble) : Word := s.getReg src0

/-- The right operand (addend, subtrahend, multiplier, divisor) is `x[src1]` (R144, D4, log 10). -/
def State.rightOperand (s : State) (src1 _src0 : Nibble) : Word := s.getReg src1

/-- A memory address, port number or shifted value: register `src0` (R22). -/
def State.primary (s : State) (src0 : Nibble) : Word := s.getReg src0

/-- The Word that `store` or `bus_write` sends: register `src1` (R22). -/
def State.sentValue (s : State) (src1 : Nibble) : Word := s.getReg src1

end Sys2Proof.Machine
end

