-- ==== Sys2Proof/Machine/Flags.lean ====
section
/-! DEFINITION. The hardware has no flags (spec/10_state.md R24). What a program sees of carry, borrow and the high
half of a product is the overflow register, and this file computes it (spec/44_arithmetic.md R140 to R145). -/

namespace Sys2Proof.Machine

/-- `zext_32` (R145, D23, log 13). -/
def widen (w : Word) : Wide := w.setWidth 32

/-- `r[15:0]`, the half stored in `x[dst]` (R145). -/
def lowHalf (r : Wide) : Word := r.extractLsb' 0 16

/-- `r[31:16]`, the half stored in `ov` (R145). -/
def highHalf (r : Wide) : Word := r.extractLsb' 16 16

/-- `a +_32 b` (R140). -/
def wideAdd (a b : Wide) : Wide := a + b

/-- `a -_32 b`, modulo 2^32 (R141). -/
def wideSub (a b : Wide) : Wide := a - b

/-- `a *_32 b` (R142). -/
def wideMul (a b : Wide) : Wide := a * b

/-- `div_32`: the truncated unsigned quotient, `DIV0_RESULT` on a zero divisor (R143, D24, log 13). -/
def wideDiv (a b : Wide) : Wide := if b = 0#32 then Config.div0Result else a / b

/-- Both halves of a wide result written: the low one to `x[dst]`, the high one to `ov` (R145). -/
def State.setWide (s : State) (dst : Nibble) (r : Wide) : State :=
  (s.setReg dst (lowHalf r)).setOv (highHalf r)

/-- `arith(op)` of R145: both sources are read before either half is written. -/
def State.arith (s : State) (op : Wide → Wide → Wide) (dst src1 src0 : Nibble) : State :=
  s.setWide dst (op (widen (s.leftOperand src1 src0)) (widen (s.rightOperand src1 src0)))

end Sys2Proof.Machine
end

