-- ==== Sys2Proof/Machine/Arithmetic.lean ====
section
/-! DEFINITION. Integer arithmetic: add, subtract, multiply, divide (spec/44_arithmetic.md R140 to R145). -/

namespace Sys2Proof.Machine

/-- add (R140). -/
def execAdd (dst src1 src0 : Nibble) (s : State) : Result := .next (s.arith wideAdd dst src1 src0)

/-- subtract (R141). -/
def execSubtract (dst src1 src0 : Nibble) (s : State) : Result := .next (s.arith wideSub dst src1 src0)

/-- multiply (R142). -/
def execMultiply (dst src1 src0 : Nibble) (s : State) : Result := .next (s.arith wideMul dst src1 src0)

/-- divide (R143). -/
def execDivide (dst src1 src0 : Nibble) (s : State) : Result := .next (s.arith wideDiv dst src1 src0)

end Sys2Proof.Machine
end

