-- ==== Sys2Proof/Machine/BlockStorage.lean ====
section
/-! DEFINITION. The block-storage controller's selects and operations (spec/48_block_storage.md R210 to R225). Reached
through the bus alone. -/

namespace Sys2Proof.Machine

/-- `DiskSelectBlock(d, v)`: not stored on an inert slot (R214, R213). -/
def State.diskSelectBlock (s : State) (d : DiskId) (v : Word) : State :=
  if (s.disk d).attached then s.setDisk d { s.disk d with selectedBlock := v } else s

/-- `DiskSelectAddress(d, v)` (R215, R213). -/
def State.diskSelectAddress (s : State) (d : DiskId) (v : Word) : State :=
  if (s.disk d).attached then s.setDisk d { s.disk d with transferAddress := v } else s

/-- The memory address of Word `i` of a transfer: `trunc_16(transfer_address + i)` (R59, R221). -/
def Disk.wordAddress (k : Disk) (i : Nat) : Word := k.transferAddress + BitVec.ofNat 16 i

/-- Word `i` of a read-block written to memory, if it landed (R221, R225). -/
def State.readBlockWord (k : Disk) (landed : Nat → Bool) (s : State) (i : Nat) : State :=
  if landed i then s.memWrite (k.wordAddress i) (k.blockWord i) else s

/-- `ReadBlock(d)`: the block's Words go to memory in ascending order, under the ordinary memory rules (R221, R223).
`landed` is true of every Word in a transfer that succeeds. -/
def State.readBlock (s : State) (d : DiskId) (landed : Nat → Bool) : State :=
  (List.range Config.blockWords).foldl (State.readBlockWord (s.disk d) landed) s

/-- Byte `j` of the block a write-block stores: the Words in order, the high byte first (R210, R222). -/
def State.blockByte (s : State) (k : Disk) (j : Nat) : Byte :=
  let w := s.memRead (k.wordAddress (j / 2))
  if j % 2 = 0 then w.extractLsb' 8 8 else w.extractLsb' 0 8

/-- The byte at an offset of the store after a write-block: inside the selected block the new byte, if it landed. -/
def State.storedByte (s : State) (k : Disk) (landed : Nat → Bool) (offset : Nat) (old : Byte) : Byte :=
  if k.base ≤ offset ∧ offset < k.base + Config.blockBytes ∧ landed (offset - k.base) = true
  then s.blockByte k (offset - k.base) else old

/-- `WriteBlock(d)`: the store's bytes of the selected block come from memory, and the store keeps its length (R222). -/
def State.writeBlock (s : State) (d : DiskId) (landed : Nat → Bool) : State :=
  s.setDisk d { s.disk d with store := (s.disk d).store.mapIdx (s.storedByte (s.disk d) landed) }

/-- The oracle's answer to the next question: does the transfer fail (R224, D20, log 2). -/
def State.storeFails (s : State) : Bool := s.params.storeFail.getD s.storeOps false

/-- Which cells of the next transfer take their new value: all, or where it fails an unknown part (R225, log 3). -/
def State.landed (s : State) (i : Nat) : Bool :=
  if s.storeFails then Config.cellLanded s.storeOps i else true

/-- The question asked once per in-range operation, and `Fatal(StoreIO)` where the answer was "fail" (R224). -/
def State.endTransfer (s : State) (fails : Bool) : State :=
  let s := { s with storeOps := s.storeOps + 1 }
  if fails then s.raiseFatal .storeIO else s

/-- `DiskOperation(d, v)`: an inert slot, another value and a block out of range are dropped without notice
(R216, R217). The selects keep their values (R219). -/
def State.diskOperation (s : State) (d : DiskId) (v : Word) : State :=
  if (s.disk d).attached = false then s
  else if v ≠ Config.opReadBlock ∧ v ≠ Config.opWriteBlock then s
  else if (s.disk d).inRange = false then s
  else if v = Config.opReadBlock then (s.readBlock d s.landed).endTransfer s.storeFails
  else (s.writeBlock d s.landed).endTransfer s.storeFails

end Sys2Proof.Machine
end

