-- ==== Sys2Proof/Machine/Bus.lean ====
section
/-! DEFINITION. The I/O bus: the port dispatcher, the console, the halt control, and the meanings of bus_read and
bus_write (spec/47_bus.md R180 to R194). -/

namespace Sys2Proof.Machine

/-- The four ports of a controller slot (R187). -/
inductive DiskPort where
  | blockCount
  | selectedBlock
  | transferAddress
  | operation
  deriving DecidableEq, Repr

/-- The closed set of ten ports (R187). -/
inductive Port where
  | console
  | halt
  | disk (d : DiskId) (p : DiskPort)
  deriving DecidableEq, Repr

/-- Which port of slot `d` a number names. -/
def DiskPorts.find (m : DiskPorts) (d : DiskId) (p : Word) : Option Port :=
  if p = m.blockCount then some (.disk d .blockCount)
  else if p = m.selectedBlock then some (.disk d .selectedBlock)
  else if p = m.transferAddress then some (.disk d .transferAddress)
  else if p = m.operation then some (.disk d .operation)
  else none

/-- Which port a number names, in the order of R185; all 16 bits are compared (R187, D25, log 22). -/
def PortMap.find (m : PortMap) (p : Word) : Option Port :=
  if p = m.console then some .console
  else if p = m.halt then some .halt
  else ((DiskPorts.find m.diskA .A p).or (DiskPorts.find m.diskB .B p))

/-- The port that a number names in this state. -/
def State.portAt (s : State) (p : Word) : Option Port := PortMap.find s.params.portMap p

/-- `ConsoleRead()`: the next input byte, zero-extended and consumed (R190), or CONSOLE_EOF with no effect (R191). -/
def State.consoleRead (s : State) : Word × State :=
  match s.params.consoleInput[s.conInPos]? with
  | some b => (b.setWidth 16, { s with conInPos := s.conInPos + 1 })
  | none => (Config.consoleEof, s)

/-- `ConsoleWrite(v)`: the low byte appended to the output (R192). -/
def State.consoleWrite (s : State) (v : Word) : State :=
  { s with conOut := s.conOut ++ [v.extractLsb' 0 8] }

/-- A write to the halt port: any non-zero Word halts (R193). -/
def State.haltWrite (s : State) (v : Word) : State := if v ≠ 0#16 then s.haltRun else s

/-- The Word a slot's port reads as (R212); its operation port is a "—" cell (R189). -/
def Disk.status (k : Disk) : DiskPort → Word
  | .blockCount => k.blockCount
  | .selectedBlock => k.selectedBlock
  | .transferAddress => k.transferAddress
  | .operation => Config.defaultPortRead

/-- What a write to a slot's port does (R186); its block-count port is a "—" cell (R189). -/
def State.diskWrite (s : State) (d : DiskId) (v : Word) : DiskPort → State
  | .blockCount => s
  | .selectedBlock => s.diskSelectBlock d v
  | .transferAddress => s.diskSelectAddress d v
  | .operation => s.diskOperation d v

/-- `BusRead(p)` (R185): the Word read, and the state after the read. -/
def State.busRead (s : State) (p : Word) : Word × State :=
  match s.portAt p with
  | some .console => s.consoleRead
  | some .halt => (Config.defaultPortRead, s)
  | some (.disk d q) => ((s.disk d).status q, s)
  | none => (Config.defaultPortRead, s)

/-- `BusWrite(p, v)` (R186). -/
def State.busWrite (s : State) (p v : Word) : State :=
  match s.portAt p with
  | some .console => s.consoleWrite v
  | some .halt => s.haltWrite v
  | some (.disk d q) => s.diskWrite d v q
  | none => s

/-- bus_read (R180): the port number is read before the destination is written; `src1` is ignored (R84). -/
def execBusRead (dst _src1 src0 : Nibble) (s : State) : Result :=
  let r := s.busRead (s.primary src0)
  .next (r.2.setReg dst r.1)

/-- bus_write (R181): `dst` is ignored (R84). -/
def execBusWrite (_dst src1 src0 : Nibble) (s : State) : Result :=
  .next (s.busWrite (s.primary src0) (s.sentValue src1))

end Sys2Proof.Machine
end

