-- ==== Sys2Proof/Machine/Jump.lean ====
section
/-! DEFINITION. Control transfer: jump (spec/41_jump.md R110 to R112). -/

namespace Sys2Proof.Machine

/-- jump (R110): on a non-zero condition the link is saved first and the target is read after it (R112, D5, log 12). -/
def execJump (dst src1 src0 : Nibble) (s : State) : Result :=
  if s.getReg src1 ≠ 0#16 then
    let linked := s.setReg dst s.pc
    .next (linked.setPc (linked.getReg src0))
  else .next s

end Sys2Proof.Machine
end

