-- ==== Sys2Proof/Machine/LoadStore.lean ====
section
/-! DEFINITION. Loads and stores: load, store (spec/43_load_store.md R130, R131). -/

namespace Sys2Proof.Machine

/-- load (R130): `src1` is ignored (R84). -/
def execLoad (dst _src1 src0 : Nibble) (s : State) : Result :=
  .next (s.setReg dst (s.memRead (s.primary src0)))

/-- store (R131): `dst` is ignored (R84). -/
def execStore (_dst src1 src0 : Nibble) (s : State) : Result :=
  .next (s.memWrite (s.primary src0) (s.sentValue src1))

end Sys2Proof.Machine
end

