-- ==== Sys2Proof/Machine/Logic.lean ====
section
/-! DEFINITION. Bitwise logic: logic_and, logic_or, logic_not (spec/46_logic.md R170 to R172). -/

namespace Sys2Proof.Machine

/-- logic_and (R170). -/
def execLogicAnd (dst src1 src0 : Nibble) (s : State) : Result :=
  .next (s.setReg dst (s.getReg src0 &&& s.getReg src1))

/-- logic_or (R171). -/
def execLogicOr (dst src1 src0 : Nibble) (s : State) : Result :=
  .next (s.setReg dst (s.getReg src0 ||| s.getReg src1))

/-- logic_not (R172): `src1` is unused. -/
def execLogicNot (dst _src1 src0 : Nibble) (s : State) : Result :=
  .next (s.setReg dst (~~~ s.getReg src0))

end Sys2Proof.Machine
end

