-- ==== Sys2Proof/Machine/Move.lean ====
section
/-! DEFINITION. Register moves: read_overflow, set (spec/42_move.md R120, R121). -/

namespace Sys2Proof.Machine

/-- read_overflow (R120): `src1` and `src0` are ignored (R84). -/
def execReadOverflow (dst _src1 _src0 : Nibble) (s : State) : Result := .next (s.setReg dst s.ov)

/-- set (R121): the whole register is written. -/
def execSet (dst src1 src0 : Nibble) (s : State) : Result := .next (s.setReg dst (imm8 src1 src0))

end Sys2Proof.Machine
end

