-- ==== Sys2Proof/Machine/Shift.lean ====
section
/-! DEFINITION. Logical shifts by a literal amount: shift_left, shift_right (spec/45_shift.md R160, R161). -/

namespace Sys2Proof.Machine

/-- shift_left (R160): zeros enter at bit 0, the bits that leave are lost (G2, log 14). -/
def execShiftLeft (dst src1 src0 : Nibble) (s : State) : Result :=
  .next (s.setReg dst (s.primary src0 <<< shiftAmount src1))

/-- shift_right (R161): "logical shift, no sign extension". -/
def execShiftRight (dst src1 src0 : Nibble) (s : State) : Result :=
  .next (s.setReg dst (s.primary src0 >>> shiftAmount src1))

end Sys2Proof.Machine
end

