-- ==== Sys2Proof/Machine/Dispatch.lean ====
section
/-! DEFINITION. `Execute` (spec/40_engine.md R101): one arm per instruction, each a call of its meaning. -/

namespace Sys2Proof.Machine

def exec (i : Instr) (s : State) : Host.Outcome State Fault Refusal :=
  match i with
  | .jump dst src1 src0 => Sys2Proof.Machine.execJump dst src1 src0 s
  | .readOverflow dst src1 src0 => Sys2Proof.Machine.execReadOverflow dst src1 src0 s
  | .set dst src1 src0 => Sys2Proof.Machine.execSet dst src1 src0 s
  | .load dst src1 src0 => Sys2Proof.Machine.execLoad dst src1 src0 s
  | .store dst src1 src0 => Sys2Proof.Machine.execStore dst src1 src0 s
  | .add dst src1 src0 => Sys2Proof.Machine.execAdd dst src1 src0 s
  | .subtract dst src1 src0 => Sys2Proof.Machine.execSubtract dst src1 src0 s
  | .multiply dst src1 src0 => Sys2Proof.Machine.execMultiply dst src1 src0 s
  | .divide dst src1 src0 => Sys2Proof.Machine.execDivide dst src1 src0 s
  | .shiftLeft dst src1 src0 => Sys2Proof.Machine.execShiftLeft dst src1 src0 s
  | .shiftRight dst src1 src0 => Sys2Proof.Machine.execShiftRight dst src1 src0 s
  | .logicAnd dst src1 src0 => Sys2Proof.Machine.execLogicAnd dst src1 src0 s
  | .logicOr dst src1 src0 => Sys2Proof.Machine.execLogicOr dst src1 src0 s
  | .logicNot dst src1 src0 => Sys2Proof.Machine.execLogicNot dst src1 src0 s
  | .busRead dst src1 src0 => Sys2Proof.Machine.execBusRead dst src1 src0 s
  | .busWrite dst src1 src0 => Sys2Proof.Machine.execBusWrite dst src1 src0 s

end Sys2Proof.Machine
end

