-- ==== Sys2Proof/Machine/Step.lean ====
section
/-! DEFINITION. One step of the machine (spec/40_engine.md R100 to R102), and the state in which a given word is the
next instruction. -/

namespace Sys2Proof.Machine

/-- `Step()` of R100: enabled only while `run = running`; fetch, advance `pc`, decode, execute. -/
def step (s : State) : Host.Outcome State Fault Refusal :=
  match s.stopFault with
  | none => exec s.fetched s.advanced
  | some f => .fault f

/-- `s` with the instruction of `nbits` bits `w` stored where `step` fetches, and running (log 8). -/
def State.withFetchWord (s : State) (nbits w : Nat) : State :=
  s.placeAtPc (BitVec.ofNat 16 (w % 2 ^ nbits))

end Sys2Proof.Machine
end

