-- ==== Sys2Proof/Safety.lean ====
section
/-! DEFINITION. The terms statements are made in: the invariant of the machine, good and bad ends, what an instruction
may write, and the frames (spec/40_engine.md R103, R107; spec/10_state.md R22). -/

namespace Sys2Proof.Machine

/-- The invariant: memory canonical and inside the address space, the parameters as reset requires them, both slots as
attach left them, the console position inside the input, and no `fatal(DecodeError)`. -/
structure State.Inv (s : State) : Prop where
  memory : s.mem.wf
  inside : ∀ e ∈ s.mem, s.params.firmwareSize + e.1 < Config.addrSpace
  firmware : s.params.FirmwareFits
  ports : s.params.portMap.Injective
  slots : ∀ d, (s.disk d).wf
  console : s.conInPos ≤ s.params.consoleInput.length
  noDecodeError : s.run ≠ .fatal .decodeError

/-- A good end of a run (R107). -/
abbrev State.GoodEnd (s : State) : Prop := s.run = .halted

/-- A safe state: the run has not ended badly (R107). -/
abbrev State.Safe (s : State) : Prop := s.run = .running ∨ s.GoodEnd

/-- The register an instruction may write: none for store and bus_write (R22). -/
def destOf : Instr → Option Nibble
  | .jump d _ _ => some d
  | .readOverflow d _ _ => some d
  | .set d _ _ => some d
  | .load d _ _ => some d
  | .store _ _ _ => none
  | .add d _ _ => some d
  | .subtract d _ _ => some d
  | .multiply d _ _ => some d
  | .divide d _ _ => some d
  | .shiftLeft d _ _ => some d
  | .shiftRight d _ _ => some d
  | .logicAnd d _ _ => some d
  | .logicOr d _ _ => some d
  | .logicNot d _ _ => some d
  | .busRead d _ _ => some d
  | .busWrite _ _ _ => none

/-- The four instructions that write the overflow register (R23). -/
def writesOverflow : Instr → Bool
  | .add _ _ _ => true
  | .subtract _ _ _ => true
  | .multiply _ _ _ => true
  | .divide _ _ _ => true
  | .jump _ _ _ => false
  | .readOverflow _ _ _ => false
  | .set _ _ _ => false
  | .load _ _ _ => false
  | .store _ _ _ => false
  | .shiftLeft _ _ _ => false
  | .shiftRight _ _ _ => false
  | .logicAnd _ _ _ => false
  | .logicOr _ _ _ => false
  | .logicNot _ _ _ => false
  | .busRead _ _ _ => false
  | .busWrite _ _ _ => false

/-- The number of each of a slot's four ports (R187). -/
def DiskPorts.number (m : DiskPorts) : DiskPort → Word
  | .blockCount => m.blockCount
  | .selectedBlock => m.selectedBlock
  | .transferAddress => m.transferAddress
  | .operation => m.operation

/-- `i` is a jump whose condition register is not zero in `s` (R110). -/
def State.JumpTaken (s : State) (i : Instr) : Prop :=
  ∃ d b a, i = .jump d b a ∧ s.getReg b ≠ 0#16

/-- `i` is a bus_write of a non-zero value to the halt port (R103, R193). -/
def State.Halts (s : State) (i : Instr) : Prop :=
  ∃ d b a, i = .busWrite d b a ∧ s.portAt (s.getReg a) = some .halt ∧ s.getReg b ≠ 0#16

/-- `i` is a bus_write of operation `v` to the operation port of slot `d`, which is attached and whose selected block
is in range (R216). -/
def State.Triggers (s : State) (i : Instr) (d : DiskId) (v : Word) : Prop :=
  ∃ x b a, i = .busWrite x b a ∧ s.portAt (s.getReg a) = some (.disk d .operation) ∧ s.getReg b = v ∧
    (s.disk d).attached = true ∧ (s.disk d).selectedBlock.toNat < (s.disk d).blockCount.toNat

/-- `i` triggers a block operation and the oracle answers "fail" (R103, R224). -/
def State.FailsTransfer (s : State) (i : Instr) : Prop :=
  ∃ d v, s.Triggers i d v ∧ (v = 0#16 ∨ v = 1#16) ∧ s.storeFails = true

/-- Address `c` is one of the 256 addresses of slot `k`'s transfer (R59, R221). -/
def Disk.Covers (k : Disk) (c : Word) : Prop := ∃ i < 256, c = k.transferAddress + BitVec.ofNat 16 i

/-- Every Word of memory reads after as before. -/
def State.KeepsMemory (s t : State) : Prop := ∀ a, t.memRead a = s.memRead a

/-- Everything but the registers, `ov`, `pc`, memory and the run state is unchanged: parameters, both slots, both
console histories, the oracle's position. -/
structure State.KeepsDevices (s t : State) : Prop where
  params : t.params = s.params
  diskA : t.diskA = s.diskA
  diskB : t.diskB = s.diskB
  conInPos : t.conInPos = s.conInPos
  conOut : t.conOut = s.conOut
  storeOps : t.storeOps = s.storeOps

/-- Every register but those of a list is unchanged. -/
def State.KeepsRegsBut (s t : State) (changed : List Nibble) : Prop :=
  ∀ r, r ∉ changed → t.getReg r = s.getReg r

/-- The frame of an instruction that writes register `d` alone: `x[d]` is `v`, and nothing else changes. -/
structure State.WritesOnlyReg (s t : State) (d : Nibble) (v : Word) : Prop where
  written : t.getReg d = v
  regs : s.KeepsRegsBut t [d]
  ov : t.ov = s.ov
  pc : t.pc = s.pc
  run : t.run = s.run
  memory : s.KeepsMemory t
  devices : s.KeepsDevices t

/-- The frame of an arithmetic instruction: `x[d]` and `ov` are written, and nothing else changes (R145). -/
structure State.WritesRegAndOv (s t : State) (d : Nibble) (v o : Word) : Prop where
  written : t.getReg d = v
  overflow : t.ov = o
  regs : s.KeepsRegsBut t [d]
  pc : t.pc = s.pc
  run : t.run = s.run
  memory : s.KeepsMemory t
  devices : s.KeepsDevices t

/-- The registers, `ov` and `pc` are unchanged. -/
structure State.KeepsCore (s t : State) : Prop where
  regs : s.KeepsRegsBut t []
  ov : t.ov = s.ov
  pc : t.pc = s.pc

end Sys2Proof.Machine
end

