-- ==== Sys2Proof/Certificates/Slice0/Obligations.lean ====
section
/-! DEFINITION. The statements for the provers, each with the rule or the sections of spec/ it formalises. A docstring
that names a decision D<n> or a log entry says which clause is the spec's or the model's own choice. -/

open Sys2Proof Sys2Proof.Machine

/-! Encoding -/

/-- R82: decoding and encoding are inverse, for Words, for instructions and for the four fields, and the encoding is
the one formula of the rule. -/
def Obligations.DecodeEncodeRoundTrip : Prop :=
  (∀ w : Word, encode (decode w) = w) ∧
  (∀ i : Instr, decode (encode i) = i) ∧
  (∀ w : Word, encodeFields (decodeFields w) = w) ∧
  (∀ f : Fields, decodeFields (encodeFields f) = f) ∧
  (∀ k d b a : Nibble, encodeFields ⟨k, d, b, a⟩ =
    (k.setWidth 16 <<< 12) ||| (d.setWidth 16 <<< 8) ||| (b.setWidth 16 <<< 4) ||| a.setWidth 16)

/-- The four fields of the instruction a Word decodes to are its four nibbles, the opcode the most significant. The
layout is D1 and the opcode numbers are D2, the spec's own choices (log 11). -/
def Obligations.DecodedFieldsAreTheNibbles : Prop :=
  ∀ w : Word,
    (decode w).toFields.opcode.toNat = w.toNat / 4096 ∧
    (decode w).toFields.dst.toNat = w.toNat / 256 % 16 ∧
    (decode w).toFields.src1.toNat = w.toNat / 16 % 16 ∧
    (decode w).toFields.src0.toNat = w.toNat % 16

/-- One word of every opcode, written out from the rules' examples, decodes to the instruction it stands for (D1, D2,
the spec's own choices, log 11). -/
def Obligations.SpecWordsDecode : Prop :=
  decode 0x0524#16 = .jump 5 2 4 ∧ decode 0x1400#16 = .readOverflow 4 0 0 ∧
  decode 0x2740#16 = .set 7 4 0 ∧ decode 0x3903#16 = .load 9 0 3 ∧
  decode 0x4017#16 = .store 0 1 7 ∧ decode 0x5121#16 = .add 1 2 1 ∧
  decode 0x6232#16 = .subtract 2 3 2 ∧ decode 0x7311#16 = .multiply 3 1 1 ∧
  decode 0x8321#16 = .divide 3 2 1 ∧ decode 0x9181#16 = .shiftLeft 1 8 1 ∧
  decode 0xA241#16 = .shiftRight 2 4 1 ∧ decode 0xB321#16 = .logicAnd 3 2 1 ∧
  decode 0xC121#16 = .logicOr 1 2 1 ∧ decode 0xD504#16 = .logicNot 5 0 4 ∧
  decode 0xEB0A#16 = .busRead 11 0 10 ∧ decode 0xF041#16 = .busWrite 0 4 1

/-- A field that an opcode does not use has no effect: its sixteen values give the same behaviour. The spec's own choice
D6, but for logic_not, where the source says so (log 15). -/
def Obligations.UnusedFieldsHaveNoEffect : Prop :=
  ∀ (s : State) (d d' b b' a a' : Nibble),
    exec (.readOverflow d b a) s = exec (.readOverflow d b' a') s ∧
    exec (.load d b a) s = exec (.load d b' a) s ∧
    exec (.store d b a) s = exec (.store d' b a) s ∧
    exec (.logicNot d b a) s = exec (.logicNot d b' a) s ∧
    exec (.busRead d b a) s = exec (.busRead d b' a) s ∧
    exec (.busWrite d b a) s = exec (.busWrite d' b a) s

/-! The step -/

/-- R100: while running, a step executes the instruction that the Word at `pc` decodes to, in the state whose `pc` is
advanced by one; otherwise no step is enabled. -/
def Obligations.StepRunsDecodedInstruction : Prop :=
  ∀ s : State,
    (s.run = .running → step s = exec (decode (s.memRead s.pc)) { s with pc := s.pc + 1#16 }) ∧
    (s.run ≠ .running → ∀ t, step s ≠ .next t)

/-- In `halted` and in `fatal(reason)` no step is enabled. That these are terminal run states is the spec's own choice
D19; the fault that says so is the model's (log 9). -/
def Obligations.StoppedMachineTakesNoStep : Prop :=
  ∀ s : State,
    (s.run = .halted → step s = .fault .halted) ∧
    (∀ r, s.run = .fatal r → step s = .fault (.fatal r))

/-- R26: the step reads the Word at `pc` and increments `pc` by 1 before the instruction executes; that is the value a
taken jump saves and the value `pc` keeps after every instruction other than a taken jump; the increment wraps. -/
def Obligations.PcAdvancesBeforeExecution : Prop :=
  ∀ s : State, s.run = .running →
    step s = exec (decode (s.memRead s.pc)) (s.setPc (BitVec.ofNat 16 ((s.pc.toNat + 1) % 65536))) ∧
    ∀ t, step s = .next t →
      (¬ s.JumpTaken (decode (s.memRead s.pc)) → t.pc.toNat = (s.pc.toNat + 1) % 65536) ∧
      (∀ d b a, decode (s.memRead s.pc) = .jump d b a → s.getReg b ≠ 0#16 →
        (t.getReg d).toNat = (s.pc.toNat + 1) % 65536)

/-- No instruction raises an exception on account of its operands, its address or its encoding: every instruction
answers a next state in every state, and only a bus_write changes the run state. The fatal run state is D27, the spec's
own modelling (log 24). That a console read completes too, where the hardware may wait for a byte (R105), rests on the
input's being given in full: D11, the spec's own modelling (log 19). -/
def Obligations.NoInstructionTraps : Prop :=
  ∀ (i : Instr) (s : State), ∃ t, exec i s = .next t ∧
    (t.run = s.run ∨ ∃ d b a, i = .busWrite d b a ∧ (t.run = .halted ∨ t.run = .fatal .storeIO))

/-- The transitions of the run state, all of them: running to halted by a non-zero write to the halt port, running to
fatal(StoreIO) by a block operation whose transfer fails, running to running by every other step; fatal(DecodeError)
never; reset gives running. The fatal state is D27 (log 24), the oracle D20 (log 2), the test of all 16 bits D25
(log 22), the spec's own choices. -/
def Obligations.RunStateTransitions : Prop :=
  (∀ l : Launch, (State.construct l).run = .running) ∧
  (∀ s t : State, step s = .next t →
    s.run = .running ∧
    (t.run = .halted ↔ s.Halts (decode (s.memRead s.pc))) ∧
    (t.run = .fatal .storeIO ↔ s.FailsTransfer (decode (s.memRead s.pc))) ∧
    (t.run = .running ↔
      ¬ s.Halts (decode (s.memRead s.pc)) ∧ ¬ s.FailsTransfer (decode (s.memRead s.pc))) ∧
    t.run ≠ .fatal .decodeError)

/-- The instruction that halts the machine is completed: the run state is halted, `pc` is its own address plus one
(wrapping), and nothing else changes. Testing all 16 bits of the value is D25, the spec's own choice (log 22). -/
def Obligations.HaltingStepCompletes : Prop :=
  ∀ s : State, s.run = .running → s.Halts (decode (s.memRead s.pc)) →
    ∃ t, step s = .next t ∧ t.run = .halted ∧ t.pc.toNat = (s.pc.toNat + 1) % 65536 ∧
      s.KeepsRegsBut t [] ∧ t.ov = s.ov ∧ s.KeepsMemory t ∧ s.KeepsDevices t

/-- Whatever an instruction does, no register changes but the one its `dst` field names, and none at all for store and
bus_write. -/
def Obligations.OnlyTheDestinationRegisterChanges : Prop :=
  ∀ (i : Instr) (s t : State) (r : Nibble),
    exec i s = .next t → destOf i ≠ some r → t.getReg r = s.getReg r

/-- R21: no register is hard-wired. Every register, `x[0]` included, reads what was last written to it and no write of
another changes it; no instruction writes a register that its `dst` field does not name; and a taken jump saves its link
in whichever register that field names. -/
def Obligations.NoRegisterIsHardwired : Prop :=
  (∀ (s : State) (i : Nibble) (v : Word), (s.setReg i v).getReg i = v ∧
    ∀ j, j ≠ i → (s.setReg i v).getReg j = s.getReg j) ∧
  (∀ (i : Instr) (s t : State) (r : Nibble), exec i s = .next t → t.getReg r ≠ s.getReg r →
    destOf i = some r ∧ i.toFields.dst = r) ∧
  (∀ (s : State) (d b a : Nibble), s.getReg b ≠ 0#16 →
    ∃ t, exec (.jump d b a) s = .next t ∧ t.getReg d = s.pc)

/-! Control transfer and moves -/

/-- A taken jump saves the advanced `pc` in `x[dst]` and goes to `x[src0]`; where `dst = src0` it goes to the link,
because the link is written first (D5, the spec's own choice, log 12). -/
def Obligations.TakenJumpLinksAndGoes : Prop :=
  ∀ (s : State) (d b a : Nibble), s.getReg b ≠ 0#16 →
    ∃ t, exec (.jump d b a) s = .next t ∧
      t.getReg d = s.pc ∧ t.pc = (if a = d then s.pc else s.getReg a) ∧
      s.KeepsRegsBut t [d] ∧ t.ov = s.ov ∧ t.run = s.run ∧ s.KeepsMemory t ∧ s.KeepsDevices t

/-- A jump whose condition register is zero is a pure no-op: no link is saved. -/
def Obligations.JumpNotTakenIsNoOp : Prop :=
  ∀ (s : State) (d b a : Nibble), s.getReg b = 0#16 → exec (.jump d b a) s = .next s

/-- read_overflow copies `ov` to `x[dst]` and changes nothing else, `ov` included. -/
def Obligations.ReadOverflowCopiesOv : Prop :=
  ∀ (s : State) (d b a : Nibble),
    ∃ t, exec (.readOverflow d b a) s = .next t ∧ s.WritesOnlyReg t d s.ov

/-- set writes the 8-bit immediate `src1 ++ src0`, zero-extended: a value of 0 to 255. -/
def Obligations.SetLoadsZeroExtendedImmediate : Prop :=
  ∀ (s : State) (d b a : Nibble),
    ∃ t v, exec (.set d b a) s = .next t ∧ s.WritesOnlyReg t d v ∧ v.toNat = 16 * b.toNat + a.toNat

/-! Loads, stores and memory -/

/-- R55 and R56: a read below FIRMWARE_SIZE gives the firmware Word and above it the cell `a - FIRMWARE_SIZE`; a write
below is silently discarded, and above it changes that one Word and nothing else. -/
def Obligations.MemoryReadAfterWrite : Prop :=
  ∀ (s : State) (a v : Word),
    (∀ h : a.toNat < s.params.firmware.length, s.memRead a = s.params.firmware[a.toNat]) ∧
    (s.params.firmware.length ≤ a.toNat → s.memRead a = s.mem.read (a.toNat - s.params.firmware.length)) ∧
    (a.toNat < s.params.firmware.length → s.memWrite a v = s) ∧
    (s.params.firmware.length ≤ a.toNat → (s.memWrite a v).memRead a = v) ∧
    (∀ c, c ≠ a → (s.memWrite a v).memRead c = s.memRead c) ∧
    (∃ m, s.memWrite a v = { s with mem := m })

/-- load copies the Word at the address in `x[src0]` to `x[dst]` and changes nothing else. -/
def Obligations.LoadReadsMemory : Prop :=
  ∀ (s : State) (d b a : Nibble),
    ∃ t, exec (.load d b a) s = .next t ∧ s.WritesOnlyReg t d (s.memRead (s.getReg a))

/-- store writes `x[src1]` to the address in `x[src0]`: that Word reads as the value unless it lies in the firmware,
every other Word reads as before, and no register changes. -/
def Obligations.StoreWritesOneWord : Prop :=
  ∀ (s : State) (d b a : Nibble),
    ∃ t, exec (.store d b a) s = .next t ∧
      t.memRead (s.getReg a) =
        (if (s.getReg a).toNat < s.params.firmwareSize then s.memRead (s.getReg a) else s.getReg b) ∧
      (∀ c, c ≠ s.getReg a → t.memRead c = s.memRead c) ∧
      s.KeepsCore t ∧ t.run = s.run ∧ s.KeepsDevices t

/-- R60: a load has no side effect, and a second one returns the same Word; an address reads the same before and after
every instruction that performs no memory write; a write changes the one cell and nothing else of the state, or nothing
at all below FIRMWARE_SIZE; no port read changes state but a read of the console, which consumes an input byte. That the
input position moves exactly while a byte is left, so that a read at end-of-stream consumes nothing, is D31, the spec's
own modelling (log 19). -/
def Obligations.OnlyConsoleReadsHaveSideEffects : Prop :=
  (∀ (s t : State) (d b a e : Nibble), exec (.load d b a) s = .next t →
    t = { s with regs := t.regs } ∧
    (a ≠ d → ∃ u, exec (.load e b a) t = .next u ∧ u.getReg e = t.getReg d)) ∧
  (∀ (i : Instr) (s t : State) (c : Word), exec i s = .next t → (∀ d b a, i ≠ .store d b a) →
    (∀ k, ¬ s.Triggers i k 0#16) → t.memRead c = s.memRead c) ∧
  (∀ (s : State) (a v : Word),
    (∀ c, (s.memWrite a v).memRead c = if c = a ∧ s.params.firmwareSize ≤ a.toNat then v else s.memRead c) ∧
    (∃ m, s.memWrite a v = { s with mem := m }) ∧
    (a.toNat < s.params.firmwareSize → s.memWrite a v = s)) ∧
  (∀ (s t : State) (d b a : Nibble), exec (.busRead d b a) s = .next t →
    (s.portAt (s.getReg a) ≠ some .console → t = { s with regs := t.regs }) ∧
    (s.portAt (s.getReg a) = some .console →
      t = { s with regs := t.regs, conInPos := t.conInPos } ∧
      t.conInPos = if s.conInPos < s.params.consoleInput.length then s.conInPos + 1 else s.conInPos))

/-- A step fetches what the store before it wrote: a store to the address of the next instruction, outside the
firmware, is the instruction that the next step executes. -/
def Obligations.FetchSeesThePrecedingStore : Prop :=
  ∀ (s : State) (d b a : Nibble), s.run = .running → s.getReg a = s.pc →
    s.params.firmwareSize ≤ s.pc.toNat →
    ∃ t, exec (.store d b a) s = .next t ∧
      step t = exec (decode (s.getReg b)) { t with pc := s.pc + 1#16 }

/-! Arithmetic. Zero-extension and the 32-bit wrap are D23 (log 13), the operand order D4 (log 10). -/

/-- add: the low half of the sum to `x[dst]`, the carry to `ov`, nothing else (D23, log 13). -/
def Obligations.AddGivesSumAndCarry : Prop :=
  ∀ (s : State) (d b a : Nibble),
    ∃ t v o, exec (.add d b a) s = .next t ∧ s.WritesRegAndOv t d v o ∧
      v.toNat = ((s.getReg a).toNat + (s.getReg b).toNat) % 65536 ∧
      o.toNat = if (s.getReg a).toNat + (s.getReg b).toNat < 65536 then 0 else 1

/-- subtract: `x[src0] - x[src1]` modulo 2^16 to `x[dst]`; `ov` is 0xFFFF on a borrow and 0 otherwise (operand order D4,
log 10; 32-bit wrap D23, log 13). -/
def Obligations.SubtractGivesDifferenceAndBorrow : Prop :=
  ∀ (s : State) (d b a : Nibble),
    ∃ t v o, exec (.subtract d b a) s = .next t ∧ s.WritesRegAndOv t d v o ∧
      (v.toNat : Int) = ((s.getReg a).toNat - (s.getReg b).toNat : Int) % 65536 ∧
      o.toNat = if (s.getReg a).toNat < (s.getReg b).toNat then 65535 else 0

/-- multiply: the exact product, its low half in `x[dst]` and its high half in `ov` (D23, log 13). -/
def Obligations.MultiplyGivesExactProduct : Prop :=
  ∀ (s : State) (d b a : Nibble),
    ∃ t v o, exec (.multiply d b a) s = .next t ∧ s.WritesRegAndOv t d v o ∧
      o.toNat * 65536 + v.toNat = (s.getReg a).toNat * (s.getReg b).toNat

/-- divide: the truncated quotient `x[src0] / x[src1]` with `ov = 0`, and 0xFFFF in both where the divisor is zero
(operand order D4, log 10; quotient D24, log 13). -/
def Obligations.DivideGivesQuotient : Prop :=
  ∀ (s : State) (d b a : Nibble),
    ∃ t v o, exec (.divide d b a) s = .next t ∧ s.WritesRegAndOv t d v o ∧
      (s.getReg b = 0#16 → v = 0xFFFF#16 ∧ o = 0xFFFF#16) ∧
      (s.getReg b ≠ 0#16 → v.toNat = (s.getReg a).toNat / (s.getReg b).toNat ∧ o = 0#16)

/-- Only the four arithmetic instructions write `ov`, each always (its new value does not depend on the old one), and
only read_overflow reads it: for every other instruction a different `ov` before makes no difference but in `ov`. -/
def Obligations.OverflowRegisterIsolation : Prop :=
  ∀ (i : Instr) (s t : State) (v : Word), exec i s = .next t →
    (writesOverflow i = false → t.ov = s.ov) ∧
    (writesOverflow i = true → exec i (s.setOv v) = .next t) ∧
    (writesOverflow i = false → (∀ d b a, i ≠ .readOverflow d b a) →
      exec i (s.setOv v) = .next (t.setOv v))

/-! Shifts and logic -/

/-- shift_left by the literal `src1`: `(x[src0] * 2^n) mod 2^16`; `ov` does not receive the bits shifted out. That zeros
enter is G2, general knowledge (log 14). -/
def Obligations.ShiftLeftMultipliesByPowerOfTwo : Prop :=
  ∀ (s : State) (d b a : Nibble),
    ∃ t v, exec (.shiftLeft d b a) s = .next t ∧ s.WritesOnlyReg t d v ∧
      v.toNat = (s.getReg a).toNat * 2 ^ b.toNat % 65536

/-- shift_right by the literal `src1`: `floor(x[src0] / 2^n)`, logical. -/
def Obligations.ShiftRightDividesByPowerOfTwo : Prop :=
  ∀ (s : State) (d b a : Nibble),
    ∃ t v, exec (.shiftRight d b a) s = .next t ∧ s.WritesOnlyReg t d v ∧
      v.toNat = (s.getReg a).toNat / 2 ^ b.toNat

/-- logic_and and logic_or: bit i of the result is the conjunction, or the disjunction, of bit i of both registers. -/
def Obligations.LogicAndOrAreBitwise : Prop :=
  ∀ (s : State) (d b a : Nibble),
    (∃ t v, exec (.logicAnd d b a) s = .next t ∧ s.WritesOnlyReg t d v ∧
      ∀ i < 16, v.getLsbD i = ((s.getReg a).getLsbD i && (s.getReg b).getLsbD i)) ∧
    (∃ t v, exec (.logicOr d b a) s = .next t ∧ s.WritesOnlyReg t d v ∧
      ∀ i < 16, v.getLsbD i = ((s.getReg a).getLsbD i || (s.getReg b).getLsbD i))

/-- logic_not: every one of the 16 bits is inverted, that is 0xFFFF - x[src0]. -/
def Obligations.LogicNotInvertsEveryBit : Prop :=
  ∀ (s : State) (d b a : Nibble),
    ∃ t v, exec (.logicNot d b a) s = .next t ∧ s.WritesOnlyReg t d v ∧
      v.toNat = 65535 - (s.getReg a).toNat ∧
      ∀ i < 16, v.getLsbD i = !(s.getReg a).getLsbD i

/-- logic_or of a register with itself into itself changes no state but the step's `pc` (the spec's nop). The all-zero
word is `jump r0, r0, r0`: it does nothing when `x[0] = 0`, and otherwise leaves the link in `x[0]` and falls through.
That 0x0000 is a jump rests on the opcode numbers D2 (log 11), and that it falls through on D5 (log 12), the spec's own
choices. -/
def Obligations.NoOperationWords : Prop :=
  ∀ (s : State) (d : Nibble),
    exec (.logicOr d d d) s = .next s ∧
    (s.getReg 0 = 0#16 → exec (decode 0x0000#16) s = .next s) ∧
    (s.getReg 0 ≠ 0#16 → exec (decode 0x0000#16) s = .next (s.setReg 0 s.pc))

/-! The bus: ports, console, halt -/

/-- The port numbers after reset, the spec's own choice D7 (log 16): 0 to 9 in the order of the port table, every other
number unrecognised. -/
def Obligations.DefaultPortNumbers : Prop :=
  State.reset.portAt 0#16 = some .console ∧ State.reset.portAt 1#16 = some .halt ∧
  State.reset.portAt 2#16 = some (.disk .A .blockCount) ∧
  State.reset.portAt 3#16 = some (.disk .A .selectedBlock) ∧
  State.reset.portAt 4#16 = some (.disk .A .transferAddress) ∧
  State.reset.portAt 5#16 = some (.disk .A .operation) ∧
  State.reset.portAt 6#16 = some (.disk .B .blockCount) ∧
  State.reset.portAt 7#16 = some (.disk .B .selectedBlock) ∧
  State.reset.portAt 8#16 = some (.disk .B .transferAddress) ∧
  State.reset.portAt 9#16 = some (.disk .B .operation) ∧
  ∀ p : Word, 10 ≤ p.toNat → State.reset.portAt p = none

/-- Under every injective port map, in every state, each of the ten numbers of the map names its own port (the `diskA`
numbers the ports of slot A, the `diskB` numbers those of slot B), no other number names that port, and every other Word
names none. That the numbers are a parameter is D7 and that the map is injective D32 (log 16), that all 16 bits are
compared D25 (log 22), the spec's own choices. -/
def Obligations.PortMapNumbersNameTheirPorts : Prop :=
  ∀ s : State, s.params.portMap.Injective →
    s.portAt s.params.portMap.console = some .console ∧ s.portAt s.params.portMap.halt = some .halt ∧
    s.portAt s.params.portMap.diskA.blockCount = some (.disk .A .blockCount) ∧
    s.portAt s.params.portMap.diskA.selectedBlock = some (.disk .A .selectedBlock) ∧
    s.portAt s.params.portMap.diskA.transferAddress = some (.disk .A .transferAddress) ∧
    s.portAt s.params.portMap.diskA.operation = some (.disk .A .operation) ∧
    s.portAt s.params.portMap.diskB.blockCount = some (.disk .B .blockCount) ∧
    s.portAt s.params.portMap.diskB.selectedBlock = some (.disk .B .selectedBlock) ∧
    s.portAt s.params.portMap.diskB.transferAddress = some (.disk .B .transferAddress) ∧
    s.portAt s.params.portMap.diskB.operation = some (.disk .B .operation) ∧
    (∀ p p' q, s.portAt p = some q → s.portAt p' = some q → p = p') ∧
    (∀ p, p ∉ s.params.portMap.numbers → s.portAt p = none)

/-- A console read with input available consumes exactly one byte and returns it zero-extended (D11, D31, the spec's own
modelling, log 19). -/
def Obligations.ConsoleReadTakesTheNextByte : Prop :=
  ∀ (s : State) (d b a : Nibble), s.portAt (s.getReg a) = some .console →
    ∀ h : s.conInPos < s.params.consoleInput.length,
    ∃ t v, exec (.busRead d b a) s = .next t ∧ v.toNat = (s.params.consoleInput[s.conInPos]).toNat ∧
      t.conInPos = s.conInPos + 1 ∧ State.WritesOnlyReg { s with conInPos := s.conInPos + 1 } t d v

/-- A console read at end-of-stream returns 0xFFFF (D10, the spec's own choice, log 18) and consumes nothing. -/
def Obligations.ConsoleReadAtEndOfStream : Prop :=
  ∀ (s : State) (d b a : Nibble), s.portAt (s.getReg a) = some .console →
    s.params.consoleInput.length ≤ s.conInPos →
    ∃ t, exec (.busRead d b a) s = .next t ∧ s.WritesOnlyReg t d 0xFFFF#16

/-- A console write appends exactly one byte, the low 8 bits of the value, to the output (the history is D31, the spec's
own modelling, log 19). -/
def Obligations.ConsoleWriteEmitsLowByte : Prop :=
  ∀ (s : State) (d b a : Nibble), s.portAt (s.getReg a) = some .console →
    ∃ t c, exec (.busWrite d b a) s = .next t ∧ c.toNat = (s.getReg b).toNat % 256 ∧
      t = { s with conOut := s.conOut ++ [c] } ∧ s.KeepsMemory t

/-- A write to the halt port halts exactly when the value is not zero, tested on all 16 bits (D25, the spec's own choice,
log 22), and changes nothing else. -/
def Obligations.HaltPortWrite : Prop :=
  ∀ (s : State) (d b a : Nibble), s.portAt (s.getReg a) = some .halt →
    ∃ t, exec (.busWrite d b a) s = .next t ∧
      t.run = (if s.getReg b = 0#16 then s.run else .halted) ∧
      s.KeepsCore t ∧ s.KeepsMemory t ∧ s.KeepsDevices t

/-- R188: a read of an unrecognised port returns 0 and a write to one is ignored; no state changes, nothing is raised. -/
def Obligations.UnrecognisedPortsAreBenign : Prop :=
  ∀ (s : State) (d b a : Nibble), s.portAt (s.getReg a) = none →
    (∃ t, exec (.busRead d b a) s = .next t ∧ s.WritesOnlyReg t d 0#16) ∧
    exec (.busWrite d b a) s = .next s

/-- The cells the port table marks "—": a read of the halt port or of an operation port returns 0 with no effect, and a
write to a block-count port is ignored (D8, the spec's own choice, log 17). -/
def Obligations.DashCellsOfThePortTable : Prop :=
  ∀ (s : State) (d b a : Nibble) (k : DiskId),
    ((s.portAt (s.getReg a) = some .halt ∨ s.portAt (s.getReg a) = some (.disk k .operation)) →
      ∃ t, exec (.busRead d b a) s = .next t ∧ s.WritesOnlyReg t d 0#16) ∧
    (s.portAt (s.getReg a) = some (.disk k .blockCount) → exec (.busWrite d b a) s = .next s)

/-! Block storage -/

/-- Reads of a slot's block-count, selected-block and transfer-address ports return that component and change no
state. -/
def Obligations.StatusPortsReadTheSlot : Prop :=
  ∀ (s : State) (d b a : Nibble) (k : DiskId),
    (s.portAt (s.getReg a) = some (.disk k .blockCount) →
      ∃ t, exec (.busRead d b a) s = .next t ∧ s.WritesOnlyReg t d (s.disk k).blockCount) ∧
    (s.portAt (s.getReg a) = some (.disk k .selectedBlock) →
      ∃ t, exec (.busRead d b a) s = .next t ∧ s.WritesOnlyReg t d (s.disk k).selectedBlock) ∧
    (s.portAt (s.getReg a) = some (.disk k .transferAddress) →
      ∃ t, exec (.busRead d b a) s = .next t ∧ s.WritesOnlyReg t d (s.disk k).transferAddress)

/-- A select on an attached slot stores any Word, without a check, and changes nothing else. -/
def Obligations.SelectsStoreAnyWord : Prop :=
  ∀ (s : State) (d b a : Nibble) (k : DiskId), (s.disk k).attached = true →
    (s.portAt (s.getReg a) = some (.disk k .selectedBlock) →
      ∃ t, exec (.busWrite d b a) s = .next t ∧
        t = s.setDisk k { s.disk k with selectedBlock := s.getReg b } ∧ s.KeepsMemory t) ∧
    (s.portAt (s.getReg a) = some (.disk k .transferAddress) →
      ∃ t, exec (.busWrite d b a) s = .next t ∧
        t = s.setDisk k { s.disk k with transferAddress := s.getReg b } ∧ s.KeepsMemory t)

/-- An inert slot: every write to its four ports changes nothing, the selects included (D28, the spec's own choice,
log 23), and every read returns 0. That its components are zero is the invariant `Disk.wf`. -/
def Obligations.InertSlotIsSafe : Prop :=
  ∀ (s : State) (d b a : Nibble) (k : DiskId) (q : DiskPort), (s.disk k).attached = false →
    s.portAt (s.getReg a) = some (.disk k q) →
    exec (.busWrite d b a) s = .next s ∧
    ((s.disk k).wf → ∃ t, exec (.busRead d b a) s = .next t ∧ s.WritesOnlyReg t d 0#16)

/-- An operation with a value other than 0 and 1 (D12) or with a selected block out of range (D13) is dropped without
notice: nothing changes. The spec's own choices (log 20). -/
def Obligations.InvalidOperationsAreDropped : Prop :=
  ∀ (s : State) (d b a : Nibble) (k : DiskId), s.portAt (s.getReg a) = some (.disk k .operation) →
    ((s.getReg b ≠ 0#16 ∧ s.getReg b ≠ 1#16) ∨
      (s.disk k).blockCount.toNat ≤ (s.disk k).selectedBlock.toNat) →
    exec (.busWrite d b a) s = .next s

/-- Read-block: Word i of the block, high byte first, goes to address transfer_address + i modulo 2^16 by the
memory's write rule, every other Word of memory is unchanged, the store and the selects are unchanged, and a failed
transfer raises Fatal(StoreIO). That an operation leaves the selects alone is D14 and that the firmware rule holds for a
transfer D15 (log 21); the oracle of the failing clause is D20 (log 2) and the fatal state D27 (log 24); all are the
spec's own choices. -/
def Obligations.ReadBlockMovesStoreToMemory : Prop :=
  ∀ (s : State) (i : Instr) (k : DiskId), s.Triggers i k 0#16 → (s.disk k).wf →
    ∃ t, exec i s = .next t ∧
      (s.storeFails = false → t.run = s.run ∧
        ∀ j < 256, s.params.firmwareSize ≤ ((s.disk k).transferAddress + BitVec.ofNat 16 j).toNat →
          ∃ hi lo, (s.disk k).store[(s.disk k).selectedBlock.toNat * 512 + 2 * j]? = some hi ∧
            (s.disk k).store[(s.disk k).selectedBlock.toNat * 512 + 2 * j + 1]? = some lo ∧
            t.memRead ((s.disk k).transferAddress + BitVec.ofNat 16 j) = hi ++ lo) ∧
      (s.storeFails = true → t.run = .fatal .storeIO) ∧
      (∀ c, ¬ (s.disk k).Covers c → t.memRead c = s.memRead c) ∧
      (∀ c, c.toNat < s.params.firmwareSize → t.memRead c = s.memRead c) ∧
      t.diskA = s.diskA ∧ t.diskB = s.diskB ∧ s.KeepsCore t ∧
      t.params = s.params ∧ t.conInPos = s.conInPos ∧ t.conOut = s.conOut

/-- Write-block: the two bytes of Word i of the block become the high and the low byte of the memory Word at
transfer_address + i modulo 2^16, every other byte of the store is unchanged and the store keeps its length, memory is
unchanged, and a failed transfer raises Fatal(StoreIO). That an operation leaves the selects alone is D14 and that a
transfer reads firmware Words as they are D15 (log 21); the oracle of the failing clause is D20 (log 2) and the fatal
state D27 (log 24); all are the spec's own choices. -/
def Obligations.WriteBlockMovesMemoryToStore : Prop :=
  ∀ (s : State) (i : Instr) (k : DiskId), s.Triggers i k 1#16 → (s.disk k).wf →
    ∃ t, exec i s = .next t ∧
      (s.storeFails = false → t.run = s.run ∧
        ∀ j < 256,
          (t.disk k).store[(s.disk k).selectedBlock.toNat * 512 + 2 * j]? =
            some ((s.memRead ((s.disk k).transferAddress + BitVec.ofNat 16 j)).extractLsb' 8 8) ∧
          (t.disk k).store[(s.disk k).selectedBlock.toNat * 512 + 2 * j + 1]? =
            some ((s.memRead ((s.disk k).transferAddress + BitVec.ofNat 16 j)).extractLsb' 0 8)) ∧
      (s.storeFails = true → t.run = .fatal .storeIO) ∧
      (∀ n, (n < (s.disk k).selectedBlock.toNat * 512 ∨ (s.disk k).selectedBlock.toNat * 512 + 512 ≤ n) →
        (t.disk k).store[n]? = (s.disk k).store[n]?) ∧
      (t.disk k).store.length = (s.disk k).store.length ∧
      t = { s with run := t.run, diskA := t.diskA, diskB := t.diskB, storeOps := t.storeOps } ∧
      t.disk k = { s.disk k with store := (t.disk k).store } ∧
      (∀ e, e ≠ k → t.disk e = s.disk e) ∧ s.KeepsMemory t

/-- A transfer that fails raises Fatal(StoreIO); each addressed memory Word (read-block) or store byte (write-block)
then holds its old or its new value, and nothing else changes but the oracle's position. The spec's own choices D20
(log 2) and D30 (log 3). -/
def Obligations.FailedTransferIsFatal : Prop :=
  ∀ (s : State) (i : Instr) (k : DiskId) (v : Word), s.Triggers i k v → (s.disk k).wf → s.storeFails = true →
    (v = 0#16 → ∃ t, exec i s = .next t ∧
      t = { s with run := .fatal .storeIO, mem := t.mem, storeOps := s.storeOps + 1 } ∧
      (∀ c, ¬ (s.disk k).Covers c → t.memRead c = s.memRead c) ∧
      (∀ j < 256, t.memRead ((s.disk k).wordAddress j) = s.memRead ((s.disk k).wordAddress j) ∨
        t.memRead ((s.disk k).wordAddress j) = (s.disk k).blockWord j)) ∧
    (v = 1#16 → ∃ t store, exec i s = .next t ∧
      t = { s.setDisk k { s.disk k with store := store } with
            run := .fatal .storeIO, storeOps := s.storeOps + 1 } ∧
      store.length = (s.disk k).store.length ∧
      (∀ n, (n < (s.disk k).base ∨ (s.disk k).base + 512 ≤ n) → store[n]? = (s.disk k).store[n]?) ∧
      (∀ j < 512, store[(s.disk k).base + j]? = (s.disk k).store[(s.disk k).base + j]? ∨
        store[(s.disk k).base + j]? = some (s.blockByte (s.disk k) j)))

/-- Each storage port routes to its slot, the `diskA` numbers of the map to slot A and the `diskB` numbers to slot B; the
two slots behave alike; an access to one never reads or changes the other; an inert slot's ports behave like
unrecognised ports. That the map is injective is D32 (log 16), that a select on an inert slot is not stored D28 (log 23),
the spec's own choices. -/
def Obligations.TheTwoSlotsShareNothing : Prop :=
  (∀ s : State, s.params.portMap.Injective → ∀ q : DiskPort,
    s.portAt (DiskPorts.number s.params.portMap.diskA q) = some (.disk .A q) ∧
    s.portAt (DiskPorts.number s.params.portMap.diskB q) = some (.disk .B q)) ∧
  (∀ (s : State) (p v : Word) (k e : DiskId) (q : DiskPort), s.portAt p = some (.disk k q) → e ≠ k →
    ((s.busRead p).2.disk e = s.disk e ∧ (s.busWrite p v).disk e = s.disk e) ∧
    (∀ x : Disk, ((s.setDisk e x).busRead p).1 = (s.busRead p).1 ∧
      (s.setDisk e x).busWrite p v = (s.busWrite p v).setDisk e x) ∧
    (∀ p' : Word, s.portAt p' = some (.disk e q) → s.disk e = s.disk k →
      (s.busRead p').1 = (s.busRead p).1 ∧ (s.busWrite p' v).disk e = (s.busWrite p v).disk k ∧
      (s.busWrite p' v).mem = (s.busWrite p v).mem ∧ (s.busWrite p' v).run = (s.busWrite p v).run) ∧
    ((s.disk k).attached = false → (s.disk k).wf →
      s.busRead p = (0#16, s) ∧ s.busWrite p v = s))

/-- Storage round trip: a write-block, then any change of memory, then a read-block of the same block to the same
address restores the 256 Words exactly. That no second select is needed is D14, the spec's own choice (log 21). -/
def Obligations.StorageRoundTrip : Prop :=
  ∀ (s t : State) (i j : Instr) (k : DiskId) (m : Memory),
    s.Triggers i k 1#16 → (s.disk k).wf → s.storeFails = false → exec i s = .next t →
    State.Triggers { t with mem := m } j k 0#16 → t.storeFails = false →
    ∃ u, exec j { t with mem := m } = .next u ∧
      ∀ n < 256, u.memRead ((s.disk k).wordAddress n) = s.memRead ((s.disk k).wordAddress n)

/-! The whole machine -/

/-- No instruction changes a Word of memory but a store, at the address in its `src0` register, and a bus_write that
triggers a read-block, at the 256 addresses of the transfer; and none below FIRMWARE_SIZE (for a read-block D15, the
spec's own choice, log 21). -/
def Obligations.OnlyStoreAndReadBlockChangeMemory : Prop :=
  ∀ (i : Instr) (s t : State) (c : Word), exec i s = .next t → t.memRead c ≠ s.memRead c →
    s.params.firmwareSize ≤ c.toNat ∧
    ((∃ d b a, i = .store d b a ∧ c = s.getReg a) ∨
     (∃ k, s.Triggers i k 0#16 ∧ (s.disk k).Covers c))

/-- The firmware is a constant: no step changes a parameter of the run, and every Word below FIRMWARE_SIZE reads after
every step as it did before (after a read-block too: D15, the spec's own choice, log 21). -/
def Obligations.FirmwareNeverChanges : Prop :=
  ∀ s t : State, step s = .next t →
    t.params = s.params ∧ ∀ a : Word, a.toNat < s.params.firmwareSize → t.memRead a = s.memRead a

/-- R262: the controllers attach during reset, and whether a slot is attached and what its block count is cannot change
during a run. -/
def Obligations.SlotsAttachOnlyAtReset : Prop :=
  (∀ l : Launch,
    ((State.construct l).diskA.attached = l.storeA.isSome) ∧
    ((State.construct l).diskB.attached = l.storeB.isSome)) ∧
  (∀ s t : State, step s = .next t → ∀ k,
    (t.disk k).attached = (s.disk k).attached ∧ (t.disk k).blockCount = (s.disk k).blockCount)

/-- A backing store keeps its length in every step, and its bytes from `block_count * 512` on, a trailing partial block or
the blocks from index 0xFFFF on, never change. The store as a list of bytes of fixed length is D29, the spec's own
modelling (log 23). -/
def Obligations.StoreKeepsItsLengthAndUnreachableBytes : Prop :=
  ∀ s t : State, step s = .next t → ∀ k,
    (t.disk k).store.length = (s.disk k).store.length ∧
    ∀ n, (s.disk k).blockCount.toNat * 512 ≤ n → (t.disk k).store[n]? = (s.disk k).store[n]?

/-- The console histories only grow: a step consumes at most one input byte and emits at most one output byte, and never
both (D11, D31, the spec's own modelling, log 19). -/
def Obligations.ConsoleHistoriesOnlyGrow : Prop :=
  ∀ s t : State, step s = .next t →
    (t.conInPos = s.conInPos ∨
      (t.conInPos = s.conInPos + 1 ∧ s.conInPos < s.params.consoleInput.length)) ∧
    (t.conOut = s.conOut ∨ (∃ b, t.conOut = s.conOut ++ [b] ∧ t.conInPos = s.conInPos))

/-- The invariant is kept by every step. -/
def Obligations.StepKeepsTheInvariant : Prop :=
  ∀ s t : State, s.Inv → step s = .next t → t.Inv

/-- The invariant holds at reset. -/
def Obligations.ResetMeetsTheInvariant : Prop := State.reset.Inv

/-- Reset on every launch that meets the `require` lines answers the constructed state, of which StateAfterReset and
MemoryAfterReset speak, and the invariant holds in it. -/
def Obligations.EveryValidLaunchMeetsTheInvariant : Prop :=
  ∀ l : Launch, l.Valid → State.boot l = some (State.construct l) ∧ (State.construct l).Inv

/-- A launch that fails the `require` lines is not a machine. -/
def Obligations.InvalidLaunchIsRefused : Prop :=
  ∀ l : Launch, ¬ l.Valid → State.boot l = none

/-- The state after reset, on every launch: running, `pc` 0 as the source says; the registers, `ov` and both selects 0
by D16 (log 5); the console histories empty by D11 and D31 (log 19); the slots attached with
min(floor(size / 512), 0xFFFF) blocks, or inert. -/
def Obligations.StateAfterReset : Prop :=
  ∀ l : Launch,
    (State.construct l).run = .running ∧ (State.construct l).pc = 0#16 ∧
    (∀ r, (State.construct l).getReg r = 0#16) ∧ (State.construct l).ov = 0#16 ∧
    (State.construct l).conInPos = 0 ∧ (State.construct l).conOut = [] ∧
    (∀ k, ((State.construct l).disk k).selectedBlock = 0#16 ∧
      ((State.construct l).disk k).transferAddress = 0#16) ∧
    (∀ bytes, l.storeA = some bytes → (State.construct l).diskA.store = bytes ∧
      (State.construct l).diskA.blockCount.toNat = min (bytes.length / 512) 0xFFFF) ∧
    (l.storeA = none → (State.construct l).diskA.blockCount = 0#16) ∧
    (∀ bytes, l.storeB = some bytes → (State.construct l).diskB.store = bytes ∧
      (State.construct l).diskB.blockCount.toNat = min (bytes.length / 512) 0xFFFF) ∧
    (l.storeB = none → (State.construct l).diskB.blockCount = 0#16)

/-- Memory after reset: the firmware below FIRMWARE_SIZE, the image from there upward, and 0x0000 beyond it (D17, the
spec's own choice, log 6). -/
def Obligations.MemoryAfterReset : Prop :=
  ∀ (l : Launch) (a : Word),
    (∀ h : a.toNat < l.params.firmware.length, (State.construct l).memRead a = l.params.firmware[a.toNat]) ∧
    (∀ n, a.toNat = l.params.firmware.length + n → ∀ h : n < l.initImage.length,
      (State.construct l).memRead a = l.initImage[n]) ∧
    (l.params.firmware.length + l.initImage.length ≤ a.toNat → (State.construct l).memRead a = 0#16)
end

