-- ==== Sys2Proof/Laws/Memory.lean ====
section
/-! SUPPORT. The laws of the mutable memory: read after write, and that every operation keeps the canonical form. The
read laws hold of every list, canonical or not. -/

namespace Sys2Proof.Machine

theorem Memory.read_erase (m : Memory) (c d : Nat) :
    (m.erase c).read d = if d = c then Config.memReset else m.read d := by
  unfold Memory.erase
  induction m with
  | nil => simp [Memory.read]
  | cons e m ih =>
    obtain ⟨b, w⟩ := e
    by_cases hb : b = c
    · simp only [List.filter_cons, hb, ne_eq, not_true_eq_false, decide_false, Bool.false_eq_true, if_false, ih,
        Memory.read]
      by_cases hd : d = c
      · simp [hd]
      · simp [hd, Ne.symm hd]
    · simp only [List.filter_cons, ne_eq, hb, not_false_eq_true, decide_true, if_true, Memory.read]
      by_cases hbd : b = d
      · have hd : d ≠ c := hbd ▸ hb
        simp [hbd, hd]
      · simpa [hbd] using ih

theorem Memory.read_insert (m : Memory) (c d : Nat) (v : Word) (fresh : ∀ e ∈ m, e.1 ≠ c) :
    (m.insert c v).read d = if d = c then v else m.read d := by
  induction m with
  | nil =>
    by_cases h : d = c
    · simp [Memory.insert, Memory.read, h]
    · simp [Memory.insert, Memory.read, h, Ne.symm h]
  | cons e m ih =>
    obtain ⟨b, w⟩ := e
    have hb : b ≠ c := fresh (b, w) (by simp)
    have ih := ih (fun x hx => fresh x (by simp [hx]))
    simp only [Memory.insert]
    split
    · by_cases h : d = c
      · simp [Memory.read, h]
      · simp [Memory.read, h, Ne.symm h]
    · by_cases hd : b = d
      · have h : d ≠ c := hd ▸ hb
        simp [Memory.read, hd, h]
      · simpa [Memory.read, hd] using ih

/-- Read after write (R56, R60): a write changes the one cell. -/
theorem Memory.read_write (m : Memory) (c d : Nat) (v : Word) :
    (m.write c v).read d = if d = c then v else m.read d := by
  unfold Memory.write
  split
  · next h => rw [Memory.read_erase, h]
  · rw [Memory.read_insert _ _ _ _ (by simp [Memory.erase]), Memory.read_erase]
    by_cases h : d = c <;> simp [h]

theorem Memory.mem_insert (m : Memory) (c : Nat) (v : Word) (e : Nat × Word) :
    e ∈ m.insert c v ↔ e = (c, v) ∨ e ∈ m := by
  induction m with
  | nil => simp [Memory.insert]
  | cons x m ih =>
    obtain ⟨b, w⟩ := x
    simp only [Memory.insert]
    split
    · simp
    · simp only [List.mem_cons, ih]
      tauto

/-- The pairs of a memory after a write are among the old ones and the new one. -/
theorem Memory.mem_write (m : Memory) (c : Nat) (v : Word) (e : Nat × Word) (h : e ∈ m.write c v) :
    e = (c, v) ∨ e ∈ m := by
  unfold Memory.write at h
  split at h
  · exact .inr (List.mem_of_mem_filter h)
  · exact ((Memory.mem_insert _ _ _ _).1 h).imp_right List.mem_of_mem_filter

theorem Memory.pairwise_insert (m : Memory) (c : Nat) (v : Word) (fresh : ∀ e ∈ m, e.1 ≠ c)
    (h : m.Pairwise (fun x y => x.1 < y.1)) : (m.insert c v).Pairwise (fun x y => x.1 < y.1) := by
  induction m with
  | nil => simp [Memory.insert]
  | cons x m ih =>
    obtain ⟨b, w⟩ := x
    have hb : b ≠ c := fresh (b, w) (by simp)
    rw [List.pairwise_cons] at h
    simp only [Memory.insert]
    split
    · next hlt =>
      refine List.pairwise_cons.2 ⟨?_, List.pairwise_cons.2 h⟩
      intro e he
      rcases List.mem_cons.1 he with rfl | he
      · exact hlt
      · exact lt_trans hlt (h.1 e he)
    · next hle =>
      refine List.pairwise_cons.2 ⟨?_, ih (fun e he => fresh e (by simp [he])) h.2⟩
      intro e he
      rcases (Memory.mem_insert _ _ _ _).1 he with rfl | he
      · show b < c
        omega
      · exact h.1 e he

theorem Memory.wf_erase (m : Memory) (c : Nat) (h : m.wf) : (m.erase c).wf :=
  ⟨h.1.filter _, fun e he => h.2 e (List.mem_of_mem_filter he)⟩

/-- A write keeps the canonical form. -/
theorem Memory.wf_write (m : Memory) (c : Nat) (v : Word) (h : m.wf) : (m.write c v).wf := by
  unfold Memory.write
  split
  · exact Memory.wf_erase m c h
  · next hv =>
    refine ⟨Memory.pairwise_insert _ _ _ (by simp [Memory.erase]) (Memory.wf_erase m c h).1, ?_⟩
    intro e he
    rcases (Memory.mem_insert _ _ _ _).1 he with rfl | he
    · exact hv
    · exact (Memory.wf_erase m c h).2 e he

theorem Memory.mem_ofWordsFrom (ws : List Word) (c : Nat) (e : Nat × Word) (h : e ∈ Memory.ofWordsFrom c ws) :
    c ≤ e.1 ∧ e.1 < c + ws.length ∧ e.2 ≠ Config.memReset := by
  induction ws generalizing c with
  | nil => simp [Memory.ofWordsFrom] at h
  | cons w ws ih =>
    simp only [Memory.ofWordsFrom] at h
    split at h
    · have := ih (c + 1) h
      simp only [List.length_cons]
      exact ⟨by omega, by omega, this.2.2⟩
    · next hw =>
      rcases List.mem_cons.1 h with rfl | h
      · simp [hw]
      · have := ih (c + 1) h
        simp only [List.length_cons]
        exact ⟨by omega, by omega, this.2.2⟩

theorem Memory.pairwise_ofWordsFrom (ws : List Word) (c : Nat) :
    (Memory.ofWordsFrom c ws).Pairwise (fun x y => x.1 < y.1) := by
  induction ws generalizing c with
  | nil => simp [Memory.ofWordsFrom]
  | cons w ws ih =>
    simp only [Memory.ofWordsFrom]
    split
    · exact ih (c + 1)
    · exact List.pairwise_cons.2 ⟨fun e he => (Memory.mem_ofWordsFrom ws (c + 1) e he).1, ih (c + 1)⟩

/-- The memory after reset is canonical. -/
theorem Memory.wf_ofImage (image : List Word) : (Memory.ofImage image).wf :=
  ⟨Memory.pairwise_ofWordsFrom image 0, fun e he => (Memory.mem_ofWordsFrom image 0 e he).2.2⟩

theorem Memory.read_ofWordsFrom_of_lt (ws : List Word) (c d : Nat) (h : d < c) :
    (Memory.ofWordsFrom c ws).read d = Config.memReset := by
  induction ws generalizing c with
  | nil => rfl
  | cons w ws ih =>
    simp only [Memory.ofWordsFrom]
    split
    · exact ih (c + 1) (by omega)
    · rw [Memory.read, if_neg (by omega)]
      exact ih (c + 1) (by omega)

/-- Cell `c + n` of an image placed from cell `c` holds its Word `n`, and past the image the reset Word (R263). -/
theorem Memory.read_ofWordsFrom (ws : List Word) (c n : Nat) :
    (Memory.ofWordsFrom c ws).read (c + n) = ws.getD n Config.memReset := by
  induction ws generalizing c n with
  | nil => rfl
  | cons w ws ih =>
    simp only [Memory.ofWordsFrom]
    cases n with
    | zero =>
      split
      · next hw =>
        rw [Memory.read_ofWordsFrom_of_lt ws (c + 1) (c + 0) (by omega)]
        simp [hw]
      · simp [Memory.read]
    | succ n =>
      have step : c + (n + 1) = c + 1 + n := by omega
      split
      · rw [step, ih]
        simp
      · rw [Memory.read, if_neg (by omega), step, ih]
        simp

/-- Cell `n` after reset (R263). -/
theorem Memory.read_ofImage (image : List Word) (n : Nat) :
    (Memory.ofImage image).read n = image.getD n Config.memReset := by
  have h := Memory.read_ofWordsFrom image 0 n
  rwa [Nat.zero_add] at h

end Sys2Proof.Machine
end

