-- ==== Sys2Proof/Laws/State.lean ====
section
/-! SUPPORT. What each update of the state does to each field, one lemma per field, and the register file's read after
write. A later proof cites these and unfolds no record update. -/

namespace Sys2Proof.Machine

@[simp] theorem State.setReg_params (s : State) (i : Nibble) (v : Word) : (s.setReg i v).params = s.params := rfl
@[simp] theorem State.setReg_regs (s : State) (i : Nibble) (v : Word) : (s.setReg i v).regs = s.regs.set i.toNat v i.isLt := rfl
@[simp] theorem State.setReg_ov (s : State) (i : Nibble) (v : Word) : (s.setReg i v).ov = s.ov := rfl
@[simp] theorem State.setReg_pc (s : State) (i : Nibble) (v : Word) : (s.setReg i v).pc = s.pc := rfl
@[simp] theorem State.setReg_run (s : State) (i : Nibble) (v : Word) : (s.setReg i v).run = s.run := rfl
@[simp] theorem State.setReg_mem (s : State) (i : Nibble) (v : Word) : (s.setReg i v).mem = s.mem := rfl
@[simp] theorem State.setReg_diskA (s : State) (i : Nibble) (v : Word) : (s.setReg i v).diskA = s.diskA := rfl
@[simp] theorem State.setReg_diskB (s : State) (i : Nibble) (v : Word) : (s.setReg i v).diskB = s.diskB := rfl
@[simp] theorem State.setReg_conInPos (s : State) (i : Nibble) (v : Word) : (s.setReg i v).conInPos = s.conInPos := rfl
@[simp] theorem State.setReg_conOut (s : State) (i : Nibble) (v : Word) : (s.setReg i v).conOut = s.conOut := rfl
@[simp] theorem State.setReg_storeOps (s : State) (i : Nibble) (v : Word) : (s.setReg i v).storeOps = s.storeOps := rfl

@[simp] theorem State.setOv_params (s : State) (v : Word) : (s.setOv v).params = s.params := rfl
@[simp] theorem State.setOv_regs (s : State) (v : Word) : (s.setOv v).regs = s.regs := rfl
@[simp] theorem State.setOv_ov (s : State) (v : Word) : (s.setOv v).ov = v := rfl
@[simp] theorem State.setOv_pc (s : State) (v : Word) : (s.setOv v).pc = s.pc := rfl
@[simp] theorem State.setOv_run (s : State) (v : Word) : (s.setOv v).run = s.run := rfl
@[simp] theorem State.setOv_mem (s : State) (v : Word) : (s.setOv v).mem = s.mem := rfl
@[simp] theorem State.setOv_diskA (s : State) (v : Word) : (s.setOv v).diskA = s.diskA := rfl
@[simp] theorem State.setOv_diskB (s : State) (v : Word) : (s.setOv v).diskB = s.diskB := rfl
@[simp] theorem State.setOv_conInPos (s : State) (v : Word) : (s.setOv v).conInPos = s.conInPos := rfl
@[simp] theorem State.setOv_conOut (s : State) (v : Word) : (s.setOv v).conOut = s.conOut := rfl
@[simp] theorem State.setOv_storeOps (s : State) (v : Word) : (s.setOv v).storeOps = s.storeOps := rfl

@[simp] theorem State.setPc_params (s : State) (v : Word) : (s.setPc v).params = s.params := rfl
@[simp] theorem State.setPc_regs (s : State) (v : Word) : (s.setPc v).regs = s.regs := rfl
@[simp] theorem State.setPc_ov (s : State) (v : Word) : (s.setPc v).ov = s.ov := rfl
@[simp] theorem State.setPc_pc (s : State) (v : Word) : (s.setPc v).pc = v := rfl
@[simp] theorem State.setPc_run (s : State) (v : Word) : (s.setPc v).run = s.run := rfl
@[simp] theorem State.setPc_mem (s : State) (v : Word) : (s.setPc v).mem = s.mem := rfl
@[simp] theorem State.setPc_diskA (s : State) (v : Word) : (s.setPc v).diskA = s.diskA := rfl
@[simp] theorem State.setPc_diskB (s : State) (v : Word) : (s.setPc v).diskB = s.diskB := rfl
@[simp] theorem State.setPc_conInPos (s : State) (v : Word) : (s.setPc v).conInPos = s.conInPos := rfl
@[simp] theorem State.setPc_conOut (s : State) (v : Word) : (s.setPc v).conOut = s.conOut := rfl
@[simp] theorem State.setPc_storeOps (s : State) (v : Word) : (s.setPc v).storeOps = s.storeOps := rfl

@[simp] theorem State.raiseFatal_params (s : State) (r : FatalReason) : (s.raiseFatal r).params = s.params := rfl
@[simp] theorem State.raiseFatal_regs (s : State) (r : FatalReason) : (s.raiseFatal r).regs = s.regs := rfl
@[simp] theorem State.raiseFatal_ov (s : State) (r : FatalReason) : (s.raiseFatal r).ov = s.ov := rfl
@[simp] theorem State.raiseFatal_pc (s : State) (r : FatalReason) : (s.raiseFatal r).pc = s.pc := rfl
@[simp] theorem State.raiseFatal_run (s : State) (r : FatalReason) : (s.raiseFatal r).run = .fatal r := rfl
@[simp] theorem State.raiseFatal_mem (s : State) (r : FatalReason) : (s.raiseFatal r).mem = s.mem := rfl
@[simp] theorem State.raiseFatal_diskA (s : State) (r : FatalReason) : (s.raiseFatal r).diskA = s.diskA := rfl
@[simp] theorem State.raiseFatal_diskB (s : State) (r : FatalReason) : (s.raiseFatal r).diskB = s.diskB := rfl
@[simp] theorem State.raiseFatal_conInPos (s : State) (r : FatalReason) : (s.raiseFatal r).conInPos = s.conInPos := rfl
@[simp] theorem State.raiseFatal_conOut (s : State) (r : FatalReason) : (s.raiseFatal r).conOut = s.conOut := rfl
@[simp] theorem State.raiseFatal_storeOps (s : State) (r : FatalReason) : (s.raiseFatal r).storeOps = s.storeOps := rfl

@[simp] theorem State.haltRun_params (s : State) : (s.haltRun).params = s.params := rfl
@[simp] theorem State.haltRun_regs (s : State) : (s.haltRun).regs = s.regs := rfl
@[simp] theorem State.haltRun_ov (s : State) : (s.haltRun).ov = s.ov := rfl
@[simp] theorem State.haltRun_pc (s : State) : (s.haltRun).pc = s.pc := rfl
@[simp] theorem State.haltRun_run (s : State) : (s.haltRun).run = .halted := rfl
@[simp] theorem State.haltRun_mem (s : State) : (s.haltRun).mem = s.mem := rfl
@[simp] theorem State.haltRun_diskA (s : State) : (s.haltRun).diskA = s.diskA := rfl
@[simp] theorem State.haltRun_diskB (s : State) : (s.haltRun).diskB = s.diskB := rfl
@[simp] theorem State.haltRun_conInPos (s : State) : (s.haltRun).conInPos = s.conInPos := rfl
@[simp] theorem State.haltRun_conOut (s : State) : (s.haltRun).conOut = s.conOut := rfl
@[simp] theorem State.haltRun_storeOps (s : State) : (s.haltRun).storeOps = s.storeOps := rfl

@[simp] theorem State.consoleWrite_params (s : State) (v : Word) : (s.consoleWrite v).params = s.params := rfl
@[simp] theorem State.consoleWrite_regs (s : State) (v : Word) : (s.consoleWrite v).regs = s.regs := rfl
@[simp] theorem State.consoleWrite_ov (s : State) (v : Word) : (s.consoleWrite v).ov = s.ov := rfl
@[simp] theorem State.consoleWrite_pc (s : State) (v : Word) : (s.consoleWrite v).pc = s.pc := rfl
@[simp] theorem State.consoleWrite_run (s : State) (v : Word) : (s.consoleWrite v).run = s.run := rfl
@[simp] theorem State.consoleWrite_mem (s : State) (v : Word) : (s.consoleWrite v).mem = s.mem := rfl
@[simp] theorem State.consoleWrite_diskA (s : State) (v : Word) : (s.consoleWrite v).diskA = s.diskA := rfl
@[simp] theorem State.consoleWrite_diskB (s : State) (v : Word) : (s.consoleWrite v).diskB = s.diskB := rfl
@[simp] theorem State.consoleWrite_conInPos (s : State) (v : Word) : (s.consoleWrite v).conInPos = s.conInPos := rfl
@[simp] theorem State.consoleWrite_conOut (s : State) (v : Word) : (s.consoleWrite v).conOut = s.conOut ++ [v.extractLsb' 0 8] := rfl
@[simp] theorem State.consoleWrite_storeOps (s : State) (v : Word) : (s.consoleWrite v).storeOps = s.storeOps := rfl

@[simp] theorem State.setDisk_params (s : State) (d : DiskId) (k : Disk) : (s.setDisk d k).params = s.params := by
  cases d <;> rfl
@[simp] theorem State.setDisk_regs (s : State) (d : DiskId) (k : Disk) : (s.setDisk d k).regs = s.regs := by
  cases d <;> rfl
@[simp] theorem State.setDisk_ov (s : State) (d : DiskId) (k : Disk) : (s.setDisk d k).ov = s.ov := by
  cases d <;> rfl
@[simp] theorem State.setDisk_pc (s : State) (d : DiskId) (k : Disk) : (s.setDisk d k).pc = s.pc := by
  cases d <;> rfl
@[simp] theorem State.setDisk_run (s : State) (d : DiskId) (k : Disk) : (s.setDisk d k).run = s.run := by
  cases d <;> rfl
@[simp] theorem State.setDisk_mem (s : State) (d : DiskId) (k : Disk) : (s.setDisk d k).mem = s.mem := by
  cases d <;> rfl
@[simp] theorem State.setDisk_conInPos (s : State) (d : DiskId) (k : Disk) : (s.setDisk d k).conInPos = s.conInPos := by
  cases d <;> rfl
@[simp] theorem State.setDisk_conOut (s : State) (d : DiskId) (k : Disk) : (s.setDisk d k).conOut = s.conOut := by
  cases d <;> rfl
@[simp] theorem State.setDisk_storeOps (s : State) (d : DiskId) (k : Disk) : (s.setDisk d k).storeOps = s.storeOps := by
  cases d <;> rfl

@[simp] theorem State.memWrite_params (s : State) (a v : Word) : (s.memWrite a v).params = s.params := by
  unfold State.memWrite
  split <;> rfl
@[simp] theorem State.memWrite_regs (s : State) (a v : Word) : (s.memWrite a v).regs = s.regs := by
  unfold State.memWrite
  split <;> rfl
@[simp] theorem State.memWrite_ov (s : State) (a v : Word) : (s.memWrite a v).ov = s.ov := by
  unfold State.memWrite
  split <;> rfl
@[simp] theorem State.memWrite_pc (s : State) (a v : Word) : (s.memWrite a v).pc = s.pc := by
  unfold State.memWrite
  split <;> rfl
@[simp] theorem State.memWrite_run (s : State) (a v : Word) : (s.memWrite a v).run = s.run := by
  unfold State.memWrite
  split <;> rfl
@[simp] theorem State.memWrite_diskA (s : State) (a v : Word) : (s.memWrite a v).diskA = s.diskA := by
  unfold State.memWrite
  split <;> rfl
@[simp] theorem State.memWrite_diskB (s : State) (a v : Word) : (s.memWrite a v).diskB = s.diskB := by
  unfold State.memWrite
  split <;> rfl
@[simp] theorem State.memWrite_conInPos (s : State) (a v : Word) : (s.memWrite a v).conInPos = s.conInPos := by
  unfold State.memWrite
  split <;> rfl
@[simp] theorem State.memWrite_conOut (s : State) (a v : Word) : (s.memWrite a v).conOut = s.conOut := by
  unfold State.memWrite
  split <;> rfl
@[simp] theorem State.memWrite_storeOps (s : State) (a v : Word) : (s.memWrite a v).storeOps = s.storeOps := by
  unfold State.memWrite
  split <;> rfl

/-- The two slots are separate cells: what a slot holds after one of them is replaced. -/
@[simp] theorem State.disk_setDisk (s : State) (d e : DiskId) (k : Disk) :
    (s.setDisk d k).disk e = if e = d then k else s.disk e := by
  cases d <;> cases e <;> rfl

/-- Replacing a slot by itself changes nothing. -/
@[simp] theorem State.setDisk_self (s : State) (d : DiskId) : s.setDisk d (s.disk d) = s := by
  cases d <;> rfl

/-- Two states that agree on every register have the same register file. -/
theorem State.regs_ext (s t : State) (h : ∀ r, t.getReg r = s.getReg r) : t.regs = s.regs := by
  apply Vector.ext
  intro i hi
  have hr := h (BitVec.ofNat 4 i)
  simpa [State.getReg, Nat.mod_eq_of_lt hi] using hr

/-- The register file's read after write: no register is hard-wired (R20, R21). -/
theorem State.getReg_setReg (s : State) (d r : Nibble) (v : Word) :
    (s.setReg d v).getReg r = if r = d then v else s.getReg r := by
  simp only [State.getReg, State.setReg, Vector.getElem_set, BitVec.toNat_inj]
  by_cases h : r = d
  · simp [h]
  · simp [h, Ne.symm h]

@[simp] theorem State.getReg_setReg_self (s : State) (d : Nibble) (v : Word) :
    (s.setReg d v).getReg d = v := by
  simp [State.getReg_setReg]

/-- What the register file shows depends on `regs` alone. -/
theorem State.getReg_congr (s t : State) (h : t.regs = s.regs) (r : Nibble) : t.getReg r = s.getReg r := by
  simp [State.getReg, h]

@[simp] theorem State.getReg_setOv (s : State) (v : Word) (r : Nibble) : (s.setOv v).getReg r = s.getReg r := rfl

@[simp] theorem State.getReg_setPc (s : State) (v : Word) (r : Nibble) : (s.setPc v).getReg r = s.getReg r := rfl

@[simp] theorem State.getReg_advanced (s : State) (r : Nibble) : s.advanced.getReg r = s.getReg r := rfl

@[simp] theorem State.getReg_memWrite (s : State) (a v : Word) (r : Nibble) :
    (s.memWrite a v).getReg r = s.getReg r :=
  State.getReg_congr _ _ (State.memWrite_regs s a v) r

/-- Every slot keeps what `setReg` does not touch. -/
theorem State.disk_congr (s t : State) (hA : t.diskA = s.diskA) (hB : t.diskB = s.diskB) (d : DiskId) :
    t.disk d = s.disk d := by
  cases d <;> simp [State.disk, hA, hB]

end Sys2Proof.Machine
end

