-- ==== Sys2Proof/Laws/Ops.lean ====
section
/-! SUPPORT. What the memory operations and the parts of a step do: one lemma per shared operation of Machine/Ops.lean
that says it once. -/

namespace Sys2Proof.Machine

/-- `MemRead` looks at the firmware and the mutable memory alone (R55). -/
theorem State.memRead_congr (s t : State) (hp : t.params = s.params) (hm : t.mem = s.mem) (a : Word) :
    t.memRead a = s.memRead a := by
  unfold State.memRead
  rw [hp, hm]

/-- A read below FIRMWARE_SIZE gives the firmware Word, whatever the memory (R53). -/
theorem State.memRead_firmware (s : State) (a : Word) (h : a.toNat < s.params.firmware.length) :
    s.memRead a = s.params.firmware[a.toNat] := by
  simp [State.memRead, h]

/-- A read at or above FIRMWARE_SIZE gives the cell `a - N` (R53). -/
theorem State.memRead_mutable (s : State) (a : Word) (h : s.params.firmwareSize ≤ a.toNat) :
    s.memRead a = s.mem.read (a.toNat - s.params.firmwareSize) := by
  have h' : ¬ a.toNat < s.params.firmware.length := by simpa [Params.firmwareSize] using h
  simp [State.memRead, h']

/-- A write changes `mem` alone. -/
theorem State.memWrite_eq (s : State) (a v : Word) : ∃ m, s.memWrite a v = { s with mem := m } := by
  unfold State.memWrite
  split
  · exact ⟨s.mem, rfl⟩
  · exact ⟨_, rfl⟩

/-- Read after write: the one Word, unless it lies in the firmware (R56). -/
theorem State.memRead_memWrite (s : State) (a v c : Word) :
    (s.memWrite a v).memRead c = if c = a ∧ s.params.firmwareSize ≤ a.toNat then v else s.memRead c := by
  by_cases ha : a.toNat < s.params.firmwareSize
  · have : ¬ s.params.firmwareSize ≤ a.toNat := by omega
    simp [State.memWrite, ha, this]
  · have ha' : s.params.firmwareSize ≤ a.toNat := by omega
    by_cases hc : c.toNat < s.params.firmwareSize
    · have hne : c ≠ a := by
        rintro rfl
        omega
      have hc' : c.toNat < s.params.firmware.length := hc
      rw [State.memRead_firmware _ c (by simpa using hc'), State.memRead_firmware s c hc']
      simp [hne]
    · have hc' : s.params.firmwareSize ≤ c.toNat := by omega
      rw [State.memRead_mutable _ c (by simpa using hc'), State.memRead_mutable s c hc']
      have hcell : c.toNat - s.params.firmwareSize = a.toNat - s.params.firmwareSize ↔ c = a := by
        rw [← BitVec.toNat_inj]
        omega
      simp [State.memWrite, ha, ha', Memory.read_write, hcell]

/-- A write keeps the canonical form and stays inside the address space. -/
theorem State.memWrite_keeps_wf (s : State) (a v : Word) (h : s.mem.wf)
    (hin : ∀ e ∈ s.mem, s.params.firmwareSize + e.1 < Config.addrSpace) :
    (s.memWrite a v).mem.wf ∧ ∀ e ∈ (s.memWrite a v).mem, s.params.firmwareSize + e.1 < Config.addrSpace := by
  unfold State.memWrite
  split
  · exact ⟨h, hin⟩
  · refine ⟨Memory.wf_write _ _ _ h, ?_⟩
    intro e he
    rcases Memory.mem_write _ _ _ _ he with rfl | he
    · have := a.isLt
      show s.params.firmwareSize + (a.toNat - s.params.firmwareSize) < 65536
      omega
    · exact hin e he

/-- A register write changes no memory. -/
@[simp] theorem State.memRead_setReg (s : State) (d : Nibble) (v a : Word) : (s.setReg d v).memRead a = s.memRead a := rfl

@[simp] theorem State.memRead_setOv (s : State) (v a : Word) : (s.setOv v).memRead a = s.memRead a := rfl

@[simp] theorem State.memRead_setPc (s : State) (v a : Word) : (s.setPc v).memRead a = s.memRead a := rfl

@[simp] theorem State.memRead_advanced (s : State) (a : Word) : s.advanced.memRead a = s.memRead a := rfl

@[simp] theorem State.memRead_setDisk (s : State) (d : DiskId) (k : Disk) (a : Word) :
    (s.setDisk d k).memRead a = s.memRead a :=
  State.memRead_congr _ _ (by simp) (by simp) a

/-- A write does not look at `ov`. -/
theorem State.memWrite_setOv (s : State) (v a x : Word) :
    (s.setOv v).memWrite a x = (s.memWrite a x).setOv v := by
  unfold State.memWrite
  by_cases h : a.toNat < s.params.firmwareSize
  · rw [if_pos h, if_pos (by simpa using h)]
  · rw [if_neg h, if_neg (by simpa using h)]
    rfl

/-- A write does not look at the controller slots. -/
theorem State.memWrite_setDisk (s : State) (d : DiskId) (k : Disk) (a x : Word) :
    (s.setDisk d k).memWrite a x = (s.memWrite a x).setDisk d k := by
  unfold State.memWrite
  by_cases h : a.toNat < s.params.firmwareSize
  · rw [if_pos h, if_pos (by simpa using h)]
  · rw [if_neg h, if_neg (by simpa using h)]
    cases d <;> rfl

/-- While running no fault stops the step; a stopped machine has its fault (R102). -/
theorem State.stopFault_eq_none (s : State) : s.stopFault = none ↔ s.run = .running := by
  unfold State.stopFault
  cases s.run <;> simp

/-- Every register but the written one survives `setReg`. -/
theorem State.setReg_keepsRegsBut (s : State) (d : Nibble) (v : Word) : s.KeepsRegsBut (s.setReg d v) [d] := by
  intro r hr
  have : r ≠ d := by simpa using hr
  simp [State.getReg_setReg, this]

/-- The frame of a register write: nothing else changes. -/
theorem State.setReg_writesOnlyReg (s : State) (d : Nibble) (v : Word) : s.WritesOnlyReg (s.setReg d v) d v :=
  ⟨by simp, s.setReg_keepsRegsBut d v, rfl, rfl, rfl, fun _ => rfl, ⟨rfl, rfl, rfl, rfl, rfl, rfl⟩⟩

/-- The frame of a wide result: `x[d]` and `ov`, nothing else (R145). -/
theorem State.setWide_writesRegAndOv (s : State) (d : Nibble) (r : Wide) :
    s.WritesRegAndOv (s.setWide d r) d (lowHalf r) (highHalf r) :=
  ⟨by simp [State.setWide], rfl, s.setReg_keepsRegsBut d _, rfl, rfl, fun _ => rfl, ⟨rfl, rfl, rfl, rfl, rfl, rfl⟩⟩

end Sys2Proof.Machine
end

