-- ==== Sys2Proof/Laws/BlockStorage.lean ====
section
/-! SUPPORT. What the block operations do (spec/48_block_storage.md R216 to R225): the shared lemmas that the proofs cite
instead of unfolding a transfer. -/

namespace Sys2Proof.Machine

/-- The addresses of one transfer are distinct (R223). -/
theorem Disk.wordAddress_inj (k : Disk) (i j : Nat) (hi : i < 65536) (hj : j < 65536)
    (h : k.wordAddress i = k.wordAddress j) : i = j := by
  have h := congrArg BitVec.toNat (add_left_cancel (a := k.transferAddress) h)
  simpa [Nat.mod_eq_of_lt hi, Nat.mod_eq_of_lt hj] using h

/-- What one Word of a read-block keeps or changes is what `memWrite` does: a property that every write keeps holds after
the transfer. -/
theorem State.readBlock_induct {P : State → Prop} (s : State) (d : DiskId) (landed : Nat → Bool) (base : P s)
    (write : ∀ s a v, P s → P (s.memWrite a v)) : P (s.readBlock d landed) := by
  unfold State.readBlock
  generalize s.disk d = k
  induction Config.blockWords with
  | zero => exact base
  | succ n ih =>
    rw [List.range_succ, List.foldl_append]
    simp only [List.foldl_cons, List.foldl_nil, State.readBlockWord]
    split
    · exact write _ _ _ ih
    · exact ih

/-- A read-block changes `mem` alone (R221, R219). -/
theorem State.readBlock_eq (s : State) (d : DiskId) (landed : Nat → Bool) :
    ∃ m, s.readBlock d landed = { s with mem := m } := by
  refine State.readBlock_induct (P := fun t => ∃ m, t = { s with mem := m }) s d landed ⟨s.mem, rfl⟩ ?_
  rintro t a v ⟨m, rfl⟩
  obtain ⟨m', h⟩ := State.memWrite_eq { s with mem := m } a v
  exact ⟨m', h⟩

/-- The first `n` Words of a read-block. -/
theorem State.memRead_readBlockWords (s : State) (k : Disk) (landed : Nat → Bool) (c : Word) (n : Nat)
    (hn : n ≤ 65536) :
    (∃ m, (List.range n).foldl (State.readBlockWord k landed) s = { s with mem := m }) ∧
    ((∀ i < n, landed i = true → c = k.wordAddress i → c.toNat < s.params.firmwareSize) →
      ((List.range n).foldl (State.readBlockWord k landed) s).memRead c = s.memRead c) ∧
    (∀ i < n, landed i = true → c = k.wordAddress i → s.params.firmwareSize ≤ c.toNat →
      ((List.range n).foldl (State.readBlockWord k landed) s).memRead c = k.blockWord i) := by
  induction n with
  | zero => exact ⟨⟨s.mem, rfl⟩, fun _ => rfl, fun i hi => absurd hi (Nat.not_lt_zero i)⟩
  | succ n ih =>
    obtain ⟨⟨m, hm⟩, hkeep, hword⟩ := ih (by omega)
    rw [List.range_succ, List.foldl_append]
    simp only [List.foldl_cons, List.foldl_nil, State.readBlockWord]
    have hp : ((List.range n).foldl (State.readBlockWord k landed) s).params = s.params := by rw [hm]
    split
    · next hl =>
      refine ⟨?_, ?_, ?_⟩
      · obtain ⟨m', h'⟩ := State.memWrite_eq ((List.range n).foldl (State.readBlockWord k landed) s)
          (k.wordAddress n) (k.blockWord n)
        refine ⟨m', h'.trans ?_⟩
        rw [hm]
      · intro h
        rw [State.memRead_memWrite, hp]
        rw [if_neg, hkeep (fun i hi => h i (by omega))]
        rintro ⟨rfl, hge⟩
        have := h n (by omega) hl rfl
        omega
      · intro i hi hli hc hge
        rw [State.memRead_memWrite, hp]
        by_cases hin : i = n
        · subst hin
          rw [if_pos ⟨hc, hc ▸ hge⟩]
        · rw [if_neg, hword i (by omega) hli hc hge]
          rintro ⟨hcn, -⟩
          exact hin (k.wordAddress_inj i n (by omega) (by omega) (hc ▸ hcn))
    · next hl =>
      refine ⟨⟨m, hm⟩, fun h => hkeep (fun i hi => h i (by omega)), ?_⟩
      intro i hi hli hc hge
      have hne : i ≠ n := by
        rintro rfl
        exact hl hli
      exact hword i (by omega) hli hc hge

/-- A Word that no landed Word of the transfer addresses, or that lies in the firmware, is unchanged (R221, R223). -/
theorem State.memRead_readBlock_keeps (s : State) (d : DiskId) (landed : Nat → Bool) (c : Word)
    (h : ∀ i < 256, landed i = true → c = (s.disk d).wordAddress i → c.toNat < s.params.firmwareSize) :
    (s.readBlock d landed).memRead c = s.memRead c :=
  (State.memRead_readBlockWords s (s.disk d) landed c 256 (by omega)).2.1 h

/-- A landed Word outside the firmware is the block's Word (R221). -/
theorem State.memRead_readBlock_word (s : State) (d : DiskId) (landed : Nat → Bool) (i : Nat) (hi : i < 256)
    (hl : landed i = true) (hge : s.params.firmwareSize ≤ ((s.disk d).wordAddress i).toNat) :
    (s.readBlock d landed).memRead ((s.disk d).wordAddress i) = (s.disk d).blockWord i :=
  (State.memRead_readBlockWords s (s.disk d) landed _ 256 (by omega)).2.2 i hi hl rfl hge

/-- A byte of the store after a write-block (R222, R225). -/
theorem State.writeBlock_store (s : State) (d : DiskId) (landed : Nat → Bool) (n : Nat) :
    ((s.writeBlock d landed).disk d).store[n]? =
      ((s.disk d).store[n]?).map (s.storedByte (s.disk d) landed n) := by
  simp [State.writeBlock]

/-- A write-block changes the bytes of its own slot's store, and nothing else; the store keeps its length (R222). -/
theorem State.writeBlock_eq (s : State) (d : DiskId) (landed : Nat → Bool) :
    ∃ store, store.length = (s.disk d).store.length ∧
      s.writeBlock d landed = s.setDisk d { s.disk d with store := store } :=
  ⟨(s.disk d).store.mapIdx (s.storedByte (s.disk d) landed), by simp, rfl⟩

@[simp] theorem State.endTransfer_params (s : State) (f : Bool) : (s.endTransfer f).params = s.params := by
  cases f <;> rfl
@[simp] theorem State.endTransfer_regs (s : State) (f : Bool) : (s.endTransfer f).regs = s.regs := by
  cases f <;> rfl
@[simp] theorem State.endTransfer_ov (s : State) (f : Bool) : (s.endTransfer f).ov = s.ov := by
  cases f <;> rfl
@[simp] theorem State.endTransfer_pc (s : State) (f : Bool) : (s.endTransfer f).pc = s.pc := by
  cases f <;> rfl
@[simp] theorem State.endTransfer_mem (s : State) (f : Bool) : (s.endTransfer f).mem = s.mem := by
  cases f <;> rfl
@[simp] theorem State.endTransfer_diskA (s : State) (f : Bool) : (s.endTransfer f).diskA = s.diskA := by
  cases f <;> rfl
@[simp] theorem State.endTransfer_diskB (s : State) (f : Bool) : (s.endTransfer f).diskB = s.diskB := by
  cases f <;> rfl
@[simp] theorem State.endTransfer_conInPos (s : State) (f : Bool) : (s.endTransfer f).conInPos = s.conInPos := by
  cases f <;> rfl
@[simp] theorem State.endTransfer_conOut (s : State) (f : Bool) : (s.endTransfer f).conOut = s.conOut := by
  cases f <;> rfl
@[simp] theorem State.endTransfer_storeOps (s : State) (f : Bool) : (s.endTransfer f).storeOps = s.storeOps + 1 := by
  cases f <;> rfl

@[simp] theorem State.endTransfer_run (s : State) (f : Bool) :
    (s.endTransfer f).run = if f then .fatal .storeIO else s.run := by
  cases f <;> rfl

@[simp] theorem State.memRead_endTransfer (s : State) (f : Bool) (a : Word) :
    (s.endTransfer f).memRead a = s.memRead a :=
  State.memRead_congr _ _ (by simp) (by simp) a

@[simp] theorem State.getReg_endTransfer (s : State) (f : Bool) (r : Nibble) :
    (s.endTransfer f).getReg r = s.getReg r :=
  State.getReg_congr _ _ (by simp) r

@[simp] theorem State.disk_endTransfer (s : State) (f : Bool) (d : DiskId) : (s.endTransfer f).disk d = s.disk d :=
  State.disk_congr _ _ (by simp) (by simp) d

@[simp] theorem State.endTransfer_true (s : State) :
    s.endTransfer true = { s with run := .fatal .storeIO, storeOps := s.storeOps + 1 } := rfl

@[simp] theorem State.endTransfer_false (s : State) : s.endTransfer false = { s with storeOps := s.storeOps + 1 } := rfl

/-- Every Word lands in a transfer that succeeds. -/
theorem State.landed_of_not_fails (s : State) (h : s.storeFails = false) (i : Nat) : s.landed i = true := by
  simp [State.landed, h]

/-- An operation on an inert slot, of another value, or on a block out of range changes nothing (R213, R216, R217). -/
theorem State.diskOperation_dropped (s : State) (d : DiskId) (v : Word)
    (h : (s.disk d).attached = false ∨ (v ≠ 0#16 ∧ v ≠ 1#16) ∨ (s.disk d).inRange = false) :
    s.diskOperation d v = s := by
  unfold State.diskOperation
  split_ifs with h1 h2 h3 h4 <;> first | rfl | skip
  all_goals
    exfalso
    rcases h with h | h | h
    · exact h1 h
    · exact h2 h
    · exact h3 h

theorem State.diskOperation_read (s : State) (d : DiskId) (ha : (s.disk d).attached = true)
    (hr : (s.disk d).inRange = true) :
    s.diskOperation d 0#16 = (s.readBlock d s.landed).endTransfer s.storeFails := by
  simp [State.diskOperation, ha, hr, Config.opReadBlock]

theorem State.diskOperation_write (s : State) (d : DiskId) (ha : (s.disk d).attached = true)
    (hr : (s.disk d).inRange = true) :
    s.diskOperation d 1#16 = (s.writeBlock d s.landed).endTransfer s.storeFails := by
  simp [State.diskOperation, ha, hr, Config.opReadBlock, Config.opWriteBlock]

/-- All that an operation can do (R216). -/
theorem State.diskOperation_cases (s : State) (d : DiskId) (v : Word) :
    s.diskOperation d v = s ∨
    ((s.disk d).attached = true ∧ (s.disk d).inRange = true ∧ v = 0#16 ∧
      s.diskOperation d v = (s.readBlock d s.landed).endTransfer s.storeFails) ∨
    ((s.disk d).attached = true ∧ (s.disk d).inRange = true ∧ v = 1#16 ∧
      s.diskOperation d v = (s.writeBlock d s.landed).endTransfer s.storeFails) := by
  by_cases h : (s.disk d).attached = false ∨ (v ≠ 0#16 ∧ v ≠ 1#16) ∨ (s.disk d).inRange = false
  · exact .inl (s.diskOperation_dropped d v h)
  · simp only [not_or, Bool.not_eq_false, ne_eq, not_and, not_not] at h
    obtain ⟨ha, hv, hr⟩ := h
    by_cases h0 : v = 0#16
    · exact .inr (.inl ⟨ha, hr, h0, h0 ▸ s.diskOperation_read d ha hr⟩)
    · exact .inr (.inr ⟨ha, hr, hv h0, hv h0 ▸ s.diskOperation_write d ha hr⟩)

/-- The end of a transfer as one update: the run state and the oracle's position. -/
theorem State.endTransfer_eq (s : State) (fails : Bool) :
    s.endTransfer fails =
      { s with run := if fails then .fatal .storeIO else s.run, storeOps := s.storeOps + 1 } := by
  cases fails <;> rfl

/-- The bytes of an in-range block lie inside the store (R222 "The store never grows"). -/
theorem Disk.base_inside (k : Disk) (ha : k.attached = true) (hwf : k.wf)
    (hr : k.selectedBlock.toNat < k.blockCount.toNat) : k.base + 512 ≤ k.store.length := by
  have hc : k.blockCount = Disk.countOf k.store.length := by simpa [Disk.wf, ha] using hwf
  have hcount : k.blockCount.toNat = min (k.store.length / 512) 65535 := by
    rw [hc]
    simp only [Disk.countOf, BitVec.toNat_ofNat, Config.blockBytes, Config.blockCountCap]
    exact Nat.mod_eq_of_lt (by omega)
  unfold Disk.base Config.blockBytes
  omega

end Sys2Proof.Machine
end

