-- ==== Sys2Proof/Laws/Bus.lean ====
section
/-! SUPPORT. What a bus access does: one inversion lemma for the read and one for the write (spec/47_bus.md R185, R186),
and what every access keeps. -/

namespace Sys2Proof.Machine

/-- A console read with input available (R190). -/
theorem State.consoleRead_byte (s : State) (h : s.conInPos < s.params.consoleInput.length) :
    s.consoleRead = ((s.params.consoleInput[s.conInPos]).setWidth 16, { s with conInPos := s.conInPos + 1 }) := by
  simp [State.consoleRead, h]

/-- A console read at end-of-stream (R191). -/
theorem State.consoleRead_end (s : State) (h : s.params.consoleInput.length ≤ s.conInPos) :
    s.consoleRead = (Config.consoleEof, s) := by
  simp [State.consoleRead, h]

/-- All that a bus read does to the state: nothing, or one console byte consumed (R60, R190). -/
theorem State.busRead_state (s : State) (p : Word) :
    (s.busRead p).2 = s ∨
    (s.portAt p = some .console ∧ s.conInPos < s.params.consoleInput.length ∧
      (s.busRead p).2 = { s with conInPos := s.conInPos + 1 }) := by
  unfold State.busRead
  split
  · next h =>
    by_cases hin : s.conInPos < s.params.consoleInput.length
    · exact .inr ⟨h, hin, by rw [s.consoleRead_byte hin]⟩
    · exact .inl (by rw [s.consoleRead_end (by omega)])
  all_goals exact .inl rfl

/-- A read of any port but the console changes no state (R60). -/
theorem State.busRead_state_of_ne (s : State) (p : Word) (h : s.portAt p ≠ some .console) : (s.busRead p).2 = s := by
  rcases s.busRead_state p with h' | ⟨h', -⟩
  · exact h'
  · exact absurd h' h

/-- All that a bus write does (R186): nothing, a byte out, the halt, a select on an attached slot, or a triggered block
operation. -/
theorem State.busWrite_cases (s : State) (p v : Word) :
    s.busWrite p v = s ∨
    (s.portAt p = some .console ∧ s.busWrite p v = s.consoleWrite v) ∨
    (s.portAt p = some .halt ∧ v ≠ 0#16 ∧ s.busWrite p v = s.haltRun) ∨
    (∃ d, s.portAt p = some (.disk d .selectedBlock) ∧ (s.disk d).attached = true ∧
      s.busWrite p v = s.setDisk d { s.disk d with selectedBlock := v }) ∨
    (∃ d, s.portAt p = some (.disk d .transferAddress) ∧ (s.disk d).attached = true ∧
      s.busWrite p v = s.setDisk d { s.disk d with transferAddress := v }) ∨
    (∃ d, s.portAt p = some (.disk d .operation) ∧ (s.disk d).attached = true ∧ (s.disk d).inRange = true ∧
      v = 0#16 ∧ s.busWrite p v = (s.readBlock d s.landed).endTransfer s.storeFails) ∨
    (∃ d, s.portAt p = some (.disk d .operation) ∧ (s.disk d).attached = true ∧ (s.disk d).inRange = true ∧
      v = 1#16 ∧ s.busWrite p v = (s.writeBlock d s.landed).endTransfer s.storeFails) := by
  cases hp : s.portAt p with
  | none => exact .inl (by simp [State.busWrite, hp])
  | some port =>
    cases port with
    | console => exact .inr (.inl ⟨rfl, by simp [State.busWrite, hp]⟩)
    | halt =>
      by_cases hv : v = 0#16
      · exact .inl (by simp [State.busWrite, hp, State.haltWrite, hv])
      · exact .inr (.inr (.inl ⟨rfl, hv, by simp [State.busWrite, hp, State.haltWrite, hv]⟩))
    | disk d q =>
      have hw : s.busWrite p v = s.diskWrite d v q := by simp [State.busWrite, hp]
      cases q with
      | blockCount => exact .inl hw
      | selectedBlock =>
        by_cases ha : (s.disk d).attached = true
        · exact .inr (.inr (.inr (.inl ⟨d, rfl, ha, by
            rw [hw, State.diskWrite, State.diskSelectBlock, if_pos ha]⟩)))
        · exact .inl (by rw [hw, State.diskWrite, State.diskSelectBlock, if_neg ha])
      | transferAddress =>
        by_cases ha : (s.disk d).attached = true
        · exact .inr (.inr (.inr (.inr (.inl ⟨d, rfl, ha, by
            rw [hw, State.diskWrite, State.diskSelectAddress, if_pos ha]⟩))))
        · exact .inl (by rw [hw, State.diskWrite, State.diskSelectAddress, if_neg ha])
      | operation =>
        rcases s.diskOperation_cases d v with h | ⟨ha, hr, hv, h⟩ | ⟨ha, hr, hv, h⟩
        · exact .inl (hw.trans h)
        · exact .inr (.inr (.inr (.inr (.inr (.inl ⟨d, rfl, ha, hr, hv, hw.trans h⟩)))))
        · exact .inr (.inr (.inr (.inr (.inr (.inr ⟨d, rfl, ha, hr, hv, hw.trans h⟩)))))

/-- A bus write changes no parameter, no register, not `ov`, not `pc`, not the console position (R181). -/
theorem State.busWrite_keeps (s : State) (p v : Word) :
    (s.busWrite p v).params = s.params ∧ (s.busWrite p v).regs = s.regs ∧ (s.busWrite p v).ov = s.ov ∧
    (s.busWrite p v).pc = s.pc ∧ (s.busWrite p v).conInPos = s.conInPos := by
  rcases s.busWrite_cases p v with h | ⟨-, h⟩ | ⟨-, -, h⟩ | ⟨d, -, -, h⟩ | ⟨d, -, -, h⟩ | ⟨d, -, -, -, -, h⟩ |
    ⟨d, -, -, -, -, h⟩ <;> rw [h]
  · exact ⟨rfl, rfl, rfl, rfl, rfl⟩
  · exact ⟨rfl, rfl, rfl, rfl, rfl⟩
  · exact ⟨rfl, rfl, rfl, rfl, rfl⟩
  · simp
  · simp
  · obtain ⟨m, hm⟩ := s.readBlock_eq d s.landed
    simp [State.endTransfer_eq, hm]
  · obtain ⟨store, -, hm⟩ := s.writeBlock_eq d s.landed
    simp [State.endTransfer_eq, hm]

end Sys2Proof.Machine
end

