-- ==== Sys2Proof/Laws/Decode.lean ====
section
/-! SUPPORT. The decoder's and the encoder's fields as numbers (spec/30_encoding.md R81, R82). -/

namespace Sys2Proof

/-- A Word's number is its four nibbles weighed by 4096, 256, 16 and 1. -/
theorem encodeFields_toNat (f : Fields) :
    (encodeFields f).toNat = f.opcode.toNat * 4096 + f.dst.toNat * 256 + f.src1.toNat * 16 + f.src0.toNat := by
  have h2 := f.dst.isLt
  have h3 := f.src1.isLt
  have h4 := f.src0.isLt
  simp only [encodeFields, BitVec.toNat_append]
  rw [← Nat.shiftLeft_add_eq_or_of_lt h4, ← Nat.shiftLeft_add_eq_or_of_lt h3, ← Nat.shiftLeft_add_eq_or_of_lt h2]
  simp only [Nat.shiftLeft_eq]
  ring

/-- The nibble of a Word that starts at bit `n`. -/
theorem nibble_toNat (w : Word) (n : Nat) : (w.extractLsb' n 4).toNat = w.toNat / 2 ^ n % 16 := by
  simp [BitVec.extractLsb'_toNat, Nat.shiftRight_eq_div_pow]

/-- `OPCODE_MAP` gives every opcode value the constructor of its number (R85). -/
theorem toFields_toInstr (f : Fields) : f.toInstr.toFields = f := by
  obtain ⟨k, d, b, a⟩ := f
  obtain ⟨n, rfl⟩ : ∃ n : Fin 16, k = BitVec.ofFin n := ⟨k.toFin, rfl⟩
  fin_cases n <;> rfl

theorem toInstr_toFields (i : Instr) : i.toFields.toInstr = i := by
  cases i <;> rfl

end Sys2Proof
end

