-- ==== Sys2Proof/Laws/Exec.lean ====
section
/-! SUPPORT. What one instruction answers: an equation per instruction over the shared operations, and the one inversion
lemma of `exec` that invariants and frames are derived from. -/

namespace Sys2Proof.Machine

theorem exec_jump (s : State) (d b a : Nibble) : exec (.jump d b a) s =
    if s.getReg b ≠ 0#16 then .next ((s.setReg d s.pc).setPc ((s.setReg d s.pc).getReg a)) else .next s := rfl

theorem exec_readOverflow (s : State) (d b a : Nibble) : exec (.readOverflow d b a) s = .next (s.setReg d s.ov) := rfl

theorem exec_set (s : State) (d b a : Nibble) : exec (.set d b a) s = .next (s.setReg d (imm8 b a)) := rfl

theorem exec_load (s : State) (d b a : Nibble) :
    exec (.load d b a) s = .next (s.setReg d (s.memRead (s.getReg a))) := rfl

theorem exec_store (s : State) (d b a : Nibble) :
    exec (.store d b a) s = .next (s.memWrite (s.getReg a) (s.getReg b)) := rfl

theorem exec_add (s : State) (d b a : Nibble) :
    exec (.add d b a) s = .next (s.setWide d (widen (s.getReg a) + widen (s.getReg b))) := rfl

theorem exec_subtract (s : State) (d b a : Nibble) :
    exec (.subtract d b a) s = .next (s.setWide d (widen (s.getReg a) - widen (s.getReg b))) := rfl

theorem exec_multiply (s : State) (d b a : Nibble) :
    exec (.multiply d b a) s = .next (s.setWide d (widen (s.getReg a) * widen (s.getReg b))) := rfl

theorem exec_divide (s : State) (d b a : Nibble) :
    exec (.divide d b a) s = .next (s.setWide d (wideDiv (widen (s.getReg a)) (widen (s.getReg b)))) := rfl

theorem exec_shiftLeft (s : State) (d b a : Nibble) :
    exec (.shiftLeft d b a) s = .next (s.setReg d (s.getReg a <<< b.toNat)) := rfl

theorem exec_shiftRight (s : State) (d b a : Nibble) :
    exec (.shiftRight d b a) s = .next (s.setReg d (s.getReg a >>> b.toNat)) := rfl

theorem exec_logicAnd (s : State) (d b a : Nibble) :
    exec (.logicAnd d b a) s = .next (s.setReg d (s.getReg a &&& s.getReg b)) := rfl

theorem exec_logicOr (s : State) (d b a : Nibble) :
    exec (.logicOr d b a) s = .next (s.setReg d (s.getReg a ||| s.getReg b)) := rfl

theorem exec_logicNot (s : State) (d b a : Nibble) :
    exec (.logicNot d b a) s = .next (s.setReg d (~~~ s.getReg a)) := rfl

theorem exec_busRead (s : State) (d b a : Nibble) :
    exec (.busRead d b a) s = .next ((s.busRead (s.getReg a)).2.setReg d (s.busRead (s.getReg a)).1) := rfl

theorem exec_busWrite (s : State) (d b a : Nibble) :
    exec (.busWrite d b a) s = .next (s.busWrite (s.getReg a) (s.getReg b)) := rfl

/-- All that an instruction can do: write its destination register, write it together with `ov`, be a jump not taken, be
a taken jump, store one Word, read the bus, or write the bus. -/
theorem exec_cases {i : Instr} {s t : State} (h : exec i s = .next t) :
    (∃ d v, destOf i = some d ∧ writesOverflow i = false ∧ t = s.setReg d v) ∨
    (∃ d r, destOf i = some d ∧ writesOverflow i = true ∧ t = s.setWide d r) ∨
    (∃ d b a, i = .jump d b a ∧ s.getReg b = 0#16 ∧ t = s) ∨
    (∃ d b a, i = .jump d b a ∧ s.getReg b ≠ 0#16 ∧
      t = (s.setReg d s.pc).setPc ((s.setReg d s.pc).getReg a)) ∨
    (∃ d b a, i = .store d b a ∧ t = s.memWrite (s.getReg a) (s.getReg b)) ∨
    (∃ d b a, i = .busRead d b a ∧ t = (s.busRead (s.getReg a)).2.setReg d (s.busRead (s.getReg a)).1) ∨
    (∃ d b a, i = .busWrite d b a ∧ t = s.busWrite (s.getReg a) (s.getReg b)) := by
  cases i with
  | jump d b a =>
    rw [exec_jump] at h
    split at h <;> cases h
    · next hb => exact .inr (.inr (.inr (.inl ⟨d, b, a, rfl, hb, rfl⟩)))
    · next hb => exact .inr (.inr (.inl ⟨d, b, a, rfl, not_not.1 hb, rfl⟩))
  | readOverflow d b a => cases h; exact .inl ⟨d, _, rfl, rfl, rfl⟩
  | set d b a => cases h; exact .inl ⟨d, _, rfl, rfl, rfl⟩
  | load d b a => cases h; exact .inl ⟨d, _, rfl, rfl, rfl⟩
  | store d b a => cases h; exact .inr (.inr (.inr (.inr (.inl ⟨d, b, a, rfl, rfl⟩))))
  | add d b a => cases h; exact .inr (.inl ⟨d, _, rfl, rfl, rfl⟩)
  | subtract d b a => cases h; exact .inr (.inl ⟨d, _, rfl, rfl, rfl⟩)
  | multiply d b a => cases h; exact .inr (.inl ⟨d, _, rfl, rfl, rfl⟩)
  | divide d b a => cases h; exact .inr (.inl ⟨d, _, rfl, rfl, rfl⟩)
  | shiftLeft d b a => cases h; exact .inl ⟨d, _, rfl, rfl, rfl⟩
  | shiftRight d b a => cases h; exact .inl ⟨d, _, rfl, rfl, rfl⟩
  | logicAnd d b a => cases h; exact .inl ⟨d, _, rfl, rfl, rfl⟩
  | logicOr d b a => cases h; exact .inl ⟨d, _, rfl, rfl, rfl⟩
  | logicNot d b a => cases h; exact .inl ⟨d, _, rfl, rfl, rfl⟩
  | busRead d b a => cases h; exact .inr (.inr (.inr (.inr (.inr (.inl ⟨d, b, a, rfl, rfl⟩)))))
  | busWrite d b a => cases h; exact .inr (.inr (.inr (.inr (.inr (.inr ⟨d, b, a, rfl, rfl⟩)))))

/-- A step that answers a next state executed the fetched instruction of a running machine. -/
theorem step_next {s t : State} (h : step s = .next t) : s.run = .running ∧ exec s.fetched s.advanced = .next t := by
  unfold step at h
  split at h
  · next hn => exact ⟨s.stopFault_eq_none.1 hn, h⟩
  · cases h

end Sys2Proof.Machine
end

