-- ==== Sys2Proof/Laws/PerInstr.lean ====
section
/-! SUPPORT. The statements made per instruction: the family TopNibble, which says that an instruction's word holds its
opcode number of spec/30_encoding.md R85 in its top nibble. -/

namespace Sys2Proof.Laws.TopNibble

open Sys2Proof

/-- The opcode number of R85, counted from the rule's table. -/
def opcodeNumber : Instr → Nat
  | .jump _ _ _ => 0
  | .readOverflow _ _ _ => 1
  | .set _ _ _ => 2
  | .load _ _ _ => 3
  | .store _ _ _ => 4
  | .add _ _ _ => 5
  | .subtract _ _ _ => 6
  | .multiply _ _ _ => 7
  | .divide _ _ _ => 8
  | .shiftLeft _ _ _ => 9
  | .shiftRight _ _ _ => 10
  | .logicAnd _ _ _ => 11
  | .logicOr _ _ _ => 12
  | .logicNot _ _ _ => 13
  | .busRead _ _ _ => 14
  | .busWrite _ _ _ => 15

/-- The word of `i` lies in its opcode's range of 4096 words. -/
def Statement (i : Instr) : Prop := (encode i).toNat / 4096 = opcodeNumber i

/-- The top nibble of an encoded instruction is its opcode field. -/
theorem encode_div (i : Instr) : (encode i).toNat / 4096 = i.toFields.opcode.toNat := by
  have h2 := i.toFields.dst.isLt
  have h3 := i.toFields.src1.isLt
  have h4 := i.toFields.src0.isLt
  have key := encodeFields_toNat i.toFields
  unfold encode
  omega

theorem jump (d b a : Nibble) : Statement (.jump d b a) := encode_div _
theorem readOverflow (d b a : Nibble) : Statement (.readOverflow d b a) := encode_div _
theorem set (d b a : Nibble) : Statement (.set d b a) := encode_div _
theorem load (d b a : Nibble) : Statement (.load d b a) := encode_div _
theorem store (d b a : Nibble) : Statement (.store d b a) := encode_div _
theorem add (d b a : Nibble) : Statement (.add d b a) := encode_div _
theorem subtract (d b a : Nibble) : Statement (.subtract d b a) := encode_div _
theorem multiply (d b a : Nibble) : Statement (.multiply d b a) := encode_div _
theorem divide (d b a : Nibble) : Statement (.divide d b a) := encode_div _
theorem shiftLeft (d b a : Nibble) : Statement (.shiftLeft d b a) := encode_div _
theorem shiftRight (d b a : Nibble) : Statement (.shiftRight d b a) := encode_div _
theorem logicAnd (d b a : Nibble) : Statement (.logicAnd d b a) := encode_div _
theorem logicOr (d b a : Nibble) : Statement (.logicOr d b a) := encode_div _
theorem logicNot (d b a : Nibble) : Statement (.logicNot d b a) := encode_div _
theorem busRead (d b a : Nibble) : Statement (.busRead d b a) := encode_div _
theorem busWrite (d b a : Nibble) : Statement (.busWrite d b a) := encode_div _

end Sys2Proof.Laws.TopNibble
end

