-- ==== Sys2Proof/Tests/Slice0.lean ====
section
/-! SUPPORT. Tests of the model: the words of spec/30_encoding.md written out bit by bit, the vectors of
spec/95_test_vectors.md one step at a time, the ill-formed terms that WellFormed refuses, and for every statement with
hypotheses a state and operands that meet them. -/

namespace Sys2Proof.Tests

open Sys2Proof.Machine

set_option Elab.async false

/-! Helpers -/

/-- The reset state with registers set. -/
def withRegs (l : List (Nibble × Word)) (s : State) : State := l.foldl (fun s p => s.setReg p.1 p.2) s

/-- The reset state at a program counter. -/
def startAt (pc : Word) (l : List (Nibble × Word)) : State := withRegs l (State.reset.setPc pc)

/-- One step that runs the word `w`. -/
def stepped (w : Nat) (s : State) : Option State :=
  match step (s.withFetchWord 16 w) with
  | .next t => some t
  | .fault _ => none
  | .refused _ => none

/-- Some register, `ov` and `pc` after running `w` at 0x0010. -/
def after (w : Nat) (r : Nibble) (l : List (Nibble × Word)) : Option (Word × Word × Word) :=
  (stepped w ((startAt 0x0010#16 l).setOv 0xAAAA#16)).map (fun t => (t.getReg r, t.ov, t.pc))

/-- A backing store of one block whose first Word is 0x1234, the others 0. -/
def oneBlock : List Byte := [0x12#8, 0x34#8] ++ List.replicate 510 0#8

/-- The reset state of a launch with one block on disk A, disk B absent, and an oracle. -/
def diskState (fail : List Bool) (l : List (Nibble × Word)) : State :=
  withRegs l (State.construct { Launch.default with
    params := { Launch.default.params with storeFail := fail }, storeA := some oneBlock })

/-- The reset state of a launch with a console input. -/
def consoleState (input : List Byte) (l : List (Nibble × Word)) : State :=
  withRegs l (State.construct { Launch.default with
    params := { Launch.default.params with consoleInput := input } })

/-- The firmware of P5. -/
def firmwareP5 : List Word := [0x2104#16, 0x2201#16, 0x0321#16, 0xBEEF#16]

/-- The reset state of a launch with the firmware of P5 and an image of one Word. -/
def firmwareState (l : List (Nibble × Word)) : State :=
  withRegs l (State.construct { Launch.default with
    params := { Launch.default.params with firmware := firmwareP5 }, initImage := [0x2403#16] })

/-! WellFormed: every instruction is well formed; each `require` line refuses an ill-formed launch -/

theorem test_wellformed_every_word : (decode 0xFFFF#16).wellFormed = true := by decide

theorem test_illformed_firmware_too_long :
    ¬ Params.FirmwareFits { Launch.default.params with firmware := List.replicate 65537 0#16 } := by
  show ¬ (List.replicate 65537 (0#16 : Word)).length ≤ 65536
  rw [List.length_replicate]
  decide

theorem test_illformed_image_too_long :
    ¬ Launch.ImageFits { Launch.default with initImage := List.replicate 65537 0#16 } := by
  show ¬ (List.replicate 65537 (0#16 : Word)).length ≤ 65536 - 0
  rw [List.length_replicate]
  decide

theorem test_illformed_ports_shared : ¬ PortMap.Injective { PortMap.default with halt := 9#16 } := by decide

theorem test_illformed_launch_refused :
    State.boot { Launch.default with
      params := { Launch.default.params with portMap := { PortMap.default with halt := 9#16 } } } = none := by
  decide

theorem test_default_launch_valid : Launch.default.Valid := by decide

/-! Decode: a word of every opcode, written out bit by bit from R81 and R85 -/

theorem test_decode_jump : decode 0b0000010100010010#16 = .jump 5 1 2 := by decide
theorem test_decode_readOverflow : decode 0b0001010011111111#16 = .readOverflow 4 15 15 := by decide
theorem test_decode_set : decode 0b0010101011111111#16 = .set 10 15 15 := by decide
theorem test_decode_load : decode 0b0011100111110011#16 = .load 9 15 3 := by decide
theorem test_decode_store : decode 0b0100111100010111#16 = .store 15 1 7 := by decide
theorem test_decode_add : decode 0b0101001100100001#16 = .add 3 2 1 := by decide
theorem test_decode_subtract : decode 0b0110001100100001#16 = .subtract 3 2 1 := by decide
theorem test_decode_multiply : decode 0b0111001100100001#16 = .multiply 3 2 1 := by decide
theorem test_decode_divide : decode 0b1000000100010001#16 = .divide 1 1 1 := by decide
theorem test_decode_shiftLeft : decode 0b1001001011110001#16 = .shiftLeft 2 15 1 := by decide
theorem test_decode_shiftRight : decode 0b1010001010000001#16 = .shiftRight 2 8 1 := by decide
theorem test_decode_logicAnd : decode 0b1011001100100001#16 = .logicAnd 3 2 1 := by decide
theorem test_decode_logicOr : decode 0b1100001100100001#16 = .logicOr 3 2 1 := by decide
theorem test_decode_logicNot : decode 0b1101001111110001#16 = .logicNot 3 15 1 := by decide
theorem test_decode_busRead : decode 0b1110010000000001#16 = .busRead 4 0 1 := by decide
theorem test_decode_busWrite : decode 0b1111111100110010#16 = .busWrite 15 3 2 := by decide

theorem test_table_word : decodeTableWord 16 0xF041 = some (.busWrite 0 4 1) := by decide
theorem test_table_word_too_long : decodeTableWord 32 0xF041 = none := by decide

/-! Instructions: vectors of spec/95_test_vectors.md, at address 0x0010 with `ov = 0xAAAA` before -/

/-- V1. -/
theorem test_jump_taken :
    (stepped 0x0524 (startAt 0x0010#16 [(2, 3#16), (4, 4#16)])).map (fun t => (t.getReg 5, t.pc)) =
      some (0x0011#16, 0x0004#16) := by decide +kernel
/-- V7: the link wraps. -/
theorem test_jump_link_wraps :
    (stepped 0x0512 (startAt 0xFFFF#16 [(1, 1#16), (2, 0x1234#16), (5, 0x9999#16)])).map
      (fun t => (t.getReg 5, t.pc)) = some (0x0000#16, 0x1234#16) := by decide +kernel
/-- V11. -/
theorem test_readOverflow : after 0x14FF 4 [] = some (0xAAAA#16, 0xAAAA#16, 0x0011#16) := by decide +kernel
/-- V13: the high byte is cleared. -/
theorem test_set_clears_high_byte : after 0x2740 7 [(7, 0xFFFF#16)] = some (0x0040#16, 0xAAAA#16, 0x0011#16) := by
  decide +kernel
/-- V14: not sign-extended. -/
theorem test_set_zero_extends : after 0x2AFF 10 [] = some (0x00FF#16, 0xAAAA#16, 0x0011#16) := by decide +kernel
/-- V23: a load of its own word. -/
theorem test_load_own_word : after 0x3101 1 [(1, 0x0010#16)] = some (0x3101#16, 0xAAAA#16, 0x0011#16) := by
  decide +kernel
/-- P5: a load from the firmware. -/
theorem test_load_firmware :
    (stepped 0x3604 ((firmwareState [(4, 3#16)]).setPc 0x0007#16)).map (fun t => t.getReg 6) = some 0xBEEF#16 := by
  decide +kernel
/-- V26. -/
theorem test_store_last_cell :
    (stepped 0x4022 (startAt 0x0010#16 [(2, 0xFFFF#16)])).map (fun t => t.memRead 0xFFFF#16) = some 0xFFFF#16 := by
  decide +kernel
/-- V27: a store to the firmware is discarded. -/
theorem test_store_firmware_discarded :
    (stepped 0x4054 ((firmwareState [(5, 0x77#16), (4, 3#16)]).setPc 0x0006#16)).map
      (fun t => (t.memRead 3#16, t.memRead 4#16)) = some (0xBEEF#16, 0x2403#16) := by decide +kernel
/-- V32 (the source's own example S2). -/
theorem test_add_wraps : after 0x5321 3 [(1, 0xFFFF#16), (2, 1#16)] = some (0#16, 1#16, 0x0011#16) := by
  decide +kernel
/-- V44: the destination is both sources. -/
theorem test_add_in_place : after 0x5111 1 [(1, 0x8001#16)] = some (2#16, 1#16, 0x0011#16) := by decide +kernel
/-- V41: the operand order and the borrow. -/
theorem test_subtract_borrow : after 0x6321 3 [(1, 7#16), (2, 0x64#16)] = some (0xFFA3#16, 0xFFFF#16, 0x0011#16) := by
  decide +kernel
/-- V40. -/
theorem test_subtract_order : after 0x6321 3 [(1, 0x64#16), (2, 7#16)] = some (0x5D#16, 0#16, 0x0011#16) := by
  decide +kernel
/-- V34. -/
theorem test_multiply_high_half :
    after 0x7321 3 [(1, 0xFFFF#16), (2, 0xFFFF#16)] = some (1#16, 0xFFFE#16, 0x0011#16) := by decide +kernel
/-- V49. -/
theorem test_multiply_square : after 0x7311 3 [(1, 0x1234#16)] = some (0x5A90#16, 0x014B#16, 0x0011#16) := by
  decide +kernel
/-- V40. -/
theorem test_divide_order : after 0x8321 3 [(1, 0x64#16), (2, 7#16)] = some (0x0E#16, 0#16, 0x0011#16) := by
  decide +kernel
/-- V47: zero by zero. -/
theorem test_divide_by_zero : after 0x8111 1 [] = some (0xFFFF#16, 0xFFFF#16, 0x0011#16) := by decide +kernel
/-- V51. -/
theorem test_shiftLeft : after 0x9211 2 [(1, 0xABCD#16)] = some (0x579A#16, 0xAAAA#16, 0x0011#16) := by
  decide +kernel
/-- V59: the amount is the literal, not a register. -/
theorem test_shiftLeft_literal :
    after 0x9181 1 [(1, 0x12#16), (8, 3#16)] = some (0x1200#16, 0xAAAA#16, 0x0011#16) := by decide +kernel
/-- V55: logical. -/
theorem test_shiftRight_logical : after 0xA111 1 [(1, 0x8000#16)] = some (0x4000#16, 0xAAAA#16, 0x0011#16) := by
  decide +kernel
/-- V54. -/
theorem test_shiftRight_fifteen : after 0xA2F1 2 [(1, 0xABCD#16)] = some (1#16, 0xAAAA#16, 0x0011#16) := by
  decide +kernel
/-- V64. -/
theorem test_logicAnd :
    after 0xB321 3 [(1, 0xF0F0#16), (2, 0x3C3C#16)] = some (0x3030#16, 0xAAAA#16, 0x0011#16) := by decide +kernel
/-- V64. -/
theorem test_logicOr :
    after 0xC321 3 [(1, 0xF0F0#16), (2, 0x3C3C#16)] = some (0xFCFC#16, 0xAAAA#16, 0x0011#16) := by decide +kernel
/-- V68, with the unused field 0xF. -/
theorem test_logicNot : after 0xD3F1 3 [(1, 0x1200#16)] = some (0xEDFF#16, 0xAAAA#16, 0x0011#16) := by decide +kernel
/-- V72: a 0xFF byte is not end-of-stream. -/
theorem test_busRead_console_byte :
    (stepped 0xE401 (consoleState [0xFF#8] [])).map (fun t => (t.getReg 4, t.conInPos)) = some (0x00FF#16, 1) := by
  decide +kernel
/-- V84, in small: 512 bytes are one block. -/
theorem test_busRead_block_count :
    (stepped 0xE401 (diskState [] [(1, 2#16)])).map (fun t => t.getReg 4) = some 1#16 := by decide +kernel
/-- V78. -/
theorem test_busWrite_halts :
    (stepped 0xF022 (startAt 0x0007#16 [(2, 1#16)])).map (fun t => (t.run, t.pc)) = some (.halted, 0x0008#16) := by
  decide +kernel
/-- V76. -/
theorem test_busWrite_console :
    (stepped 0xF041 (startAt 0x0010#16 [(4, 0x0148#16)])).map (fun t => t.conOut) = some [0x48#8] := by decide +kernel

/-! Block operations: V88, V89, V90, V94, V60 on a store of one block -/

/-- V88. -/
theorem test_read_block :
    let t := (diskState [] []).setDisk .A { (diskState [] []).diskA with transferAddress := 0x0200#16 }
    ((t.busWrite 5#16 0#16).memRead 0x0200#16, (t.busWrite 5#16 0#16).memRead 0x0201#16) = (0x1234#16, 0#16) := by
  decide +kernel
/-- V91: the addresses wrap. -/
theorem test_read_block_wraps :
    let bytes : List Byte := List.replicate 257 0#8 ++ [0x77#8] ++ List.replicate 254 0#8
    let t := (diskState [] []).setDisk .A
      { (diskState [] []).diskA with transferAddress := 0xFF80#16, store := bytes }
    (t.busWrite 5#16 0#16).memRead 0x0000#16 = 0x0077#16 := by decide +kernel
/-- V89: the high byte first. -/
theorem test_write_block :
    let t := ((diskState [] []).memWrite 0x0000#16 0xBEEF#16).busWrite 5#16 1#16
    (t.diskA.store[0]?, t.diskA.store[1]?, t.diskA.store[2]?, t.diskA.store.length) =
      (some 0xBE#8, some 0xEF#8, some 0#8, 512) := by decide +kernel
/-- V90. -/
theorem test_operation_two_ignored : (diskState [] []).busWrite 5#16 2#16 = diskState [] [] := by decide +kernel
/-- V94. -/
theorem test_failed_transfer_is_fatal : ((diskState [true] []).busWrite 5#16 0#16).run = .fatal .storeIO := by
  decide +kernel
/-- V60. -/
theorem test_inert_select : (State.reset.busWrite 3#16 2#16).busRead 3#16 = (0#16, State.reset) := by decide +kernel
/-- V93 needs disk B attached; here disk B is inert and disk A is not touched. -/
theorem test_other_slot : ((diskState [] []).busWrite 7#16 9#16).diskA.selectedBlock = 0#16 := by decide +kernel

/-! Witnesses: states and operands that meet the hypotheses of the statements -/

theorem test_witness_running : State.reset.run = .running := by decide
theorem test_witness_not_running : State.reset.haltRun.run ≠ .running := by decide
theorem test_witness_stopped :
    State.reset.haltRun.run = .halted ∧ (State.reset.raiseFatal .storeIO).run = .fatal .storeIO := by decide

/-- PcAdvancesBeforeExecution: a running state at the top of memory whose instruction is a taken jump, and one whose
instruction is no taken jump. -/
theorem test_witness_pcAdvances :
    let s := (startAt 0xFFFF#16 [(1, 1#16)]).memWrite 0xFFFF#16 0x0512#16
    s.run = .running ∧ decode (s.memRead s.pc) = .jump 5 1 2 ∧ s.getReg 1 ≠ 0#16 ∧ ∃ t, step s = .next t :=
  ⟨by decide +kernel, by decide +kernel, by decide +kernel, _, rfl⟩
theorem test_witness_pcAdvances_notTaken :
    State.reset.run = .running ∧ ¬ State.reset.JumpTaken (decode (State.reset.memRead State.reset.pc)) := by
  refine ⟨rfl, ?_⟩
  rintro ⟨d, b, a, h, hb⟩
  have h0 : decode (State.reset.memRead State.reset.pc) = .jump 0 0 0 := by decide +kernel
  rw [h0] at h
  cases h
  exact hb (by decide +kernel)

/-- Statements about a step that answers a next state (RunStateTransitions, FirmwareNeverChanges,
SlotsAttachOnlyAtReset, ConsoleHistoriesOnlyGrow). -/
theorem test_witness_step_next : ∃ t, step State.reset = .next t := ⟨State.reset.setPc 1#16, by rfl⟩

/-- HaltingStepCompletes, at the top of memory. -/
theorem test_witness_halting :
    let s := (startAt 0xFFFF#16 [(2, 1#16)]).memWrite 0xFFFF#16 0xF022#16
    s.run = .running ∧ s.Halts (decode (s.memRead s.pc)) :=
  ⟨by decide +kernel, 0, 2, 2, by decide +kernel, by decide +kernel, by decide +kernel⟩

/-- RunStateTransitions: a running state whose instruction fails its transfer. -/
theorem test_witness_failing_step :
    let s := (diskState [true] [(1, 0#16), (2, 5#16)]).memWrite 0#16 0xF012#16
    s.run = .running ∧ s.FailsTransfer (decode (s.memRead s.pc)) :=
  ⟨by decide +kernel, .A, 0#16,
    ⟨0, 1, 2, by decide +kernel, by decide +kernel, by decide +kernel, by decide +kernel, by decide +kernel⟩,
    .inl rfl, by decide +kernel⟩

/-- OnlyTheDestinationRegisterChanges: an instruction with a destination and one without. -/
theorem test_witness_destination :
    (∃ t, exec (.set 3 1 2) State.reset = .next t) ∧ destOf (.set 3 1 2) ≠ some 4 ∧
    (∃ t, exec (.store 3 1 2) State.reset = .next t) ∧ destOf (.store 3 1 2) ≠ some 3 :=
  ⟨⟨_, rfl⟩, by decide, ⟨_, rfl⟩, by decide⟩

theorem test_witness_jump_taken : (startAt 0#16 [(15, 0x8000#16)]).getReg 15 ≠ 0#16 := by decide +kernel
theorem test_witness_jump_not_taken : State.reset.getReg 15 = 0#16 := by decide

/-- MemoryReadAfterWrite: the last firmware address and the first mutable one. -/
theorem test_witness_firmware_edge :
    (3#16).toNat < (firmwareState []).params.firmware.length ∧
    (firmwareState []).params.firmware.length ≤ (4#16).toNat ∧ (4#16 : Word) ≠ 3#16 := by decide

/-- OnlyConsoleReadsHaveSideEffects: a load, a read of the console, a read of another port. -/
theorem test_witness_loads_and_port_reads :
    (∃ t, exec (.load 1 0 2) State.reset = .next t) ∧ (2 : Nibble) ≠ 1 ∧
    (∃ t, exec (.busRead 1 0 2) State.reset = .next t) ∧
    State.reset.portAt (State.reset.getReg 2) = some .console ∧
    (∃ t, exec (.busRead 1 0 2) (startAt 0#16 [(2, 10#16)]) = .next t) ∧
    (startAt 0#16 [(2, 10#16)]).portAt ((startAt 0#16 [(2, 10#16)]).getReg 2) ≠ some .console :=
  ⟨⟨_, rfl⟩, by decide, ⟨_, rfl⟩, by decide +kernel, ⟨_, rfl⟩, by decide +kernel⟩

/-- OnlyConsoleReadsHaveSideEffects, a memory write to the last firmware address and one to the first mutable one. -/
theorem test_witness_memory_write :
    (3#16).toNat < (firmwareState []).params.firmwareSize ∧
    (firmwareState []).params.firmwareSize ≤ (4#16).toNat := by decide

/-- OnlyConsoleReadsHaveSideEffects, an instruction between two reads of an address that performs no memory write: a
bus_write to the console. -/
theorem test_witness_no_memory_write :
    (∃ t, exec (.busWrite 1 2 3) State.reset = .next t) ∧ (∀ d b a, Instr.busWrite 1 2 3 ≠ .store d b a) ∧
    ∀ k, ¬ State.reset.Triggers (.busWrite 1 2 3) k 0#16 := by
  refine ⟨⟨_, rfl⟩, (by intro d b a h; cases h), ?_⟩
  rintro k ⟨x, b, a, -, -, -, ha, -⟩
  revert ha
  cases k <;> decide

/-- NoRegisterIsHardwired: two different registers, an instruction that changes one, and a taken jump. -/
theorem test_witness_no_hardwired_register :
    (1 : Nibble) ≠ 0 ∧ (∃ t, exec (.set 0 1 2) State.reset = .next t ∧ t.getReg 0 ≠ State.reset.getReg 0) ∧
    (startAt 0#16 [(15, 1#16)]).getReg 15 ≠ 0#16 :=
  ⟨by decide, ⟨_, rfl, by decide⟩, by decide +kernel⟩

/-- FetchSeesThePrecedingStore, at the first mutable address. -/
theorem test_witness_fetch_sees_store :
    let s := (firmwareState [(2, 4#16)]).setPc 4#16
    s.run = .running ∧ s.getReg 2 = s.pc ∧ s.params.firmwareSize ≤ s.pc.toNat := by decide +kernel

/-- OverflowRegisterIsolation: an instruction of each of its three kinds. -/
theorem test_witness_overflow :
    (∃ t, exec (.divide 1 2 3) State.reset = .next t) ∧ writesOverflow (.divide 1 2 3) = true ∧
    (∃ t, exec (.busWrite 1 2 3) State.reset = .next t) ∧ writesOverflow (.busWrite 1 2 3) = false ∧
    (∀ d b a, Instr.busWrite 1 2 3 ≠ .readOverflow d b a) ∧
    (∃ t, exec (.readOverflow 1 2 3) State.reset = .next t) ∧ writesOverflow (.readOverflow 1 2 3) = false :=
  ⟨⟨_, rfl⟩, rfl, ⟨_, rfl⟩, rfl, (by intro d b a h; cases h), ⟨_, rfl⟩, rfl⟩

theorem test_witness_nop_word : (startAt 0#16 [(0, 0x55#16)]).getReg 0 ≠ 0#16 ∧ State.reset.getReg 0 = 0#16 := by
  decide +kernel

/-- A port map with no number but 0 in common with the default one. -/
def otherPortMap : PortMap :=
  { console := 0xFFFF#16, halt := 0xFF00#16, diskA := ⟨0xB0#16, 0xB1#16, 0xB2#16, 0xB3#16⟩,
    diskB := ⟨0xA0#16, 0xA1#16, 0xA2#16, 0#16⟩ }

/-- PortMapNumbersNameTheirPorts and TheTwoSlotsShareNothing (routing): an injective map other than the default, under
which number 0 is a port of slot B and number 9 none. -/
theorem test_witness_port_map :
    let s := State.construct { Launch.default with
      params := { Launch.default.params with portMap := otherPortMap } }
    s.params.portMap.Injective ∧ s.portAt 0#16 = some (.disk .B .operation) ∧
    9#16 ∉ s.params.portMap.numbers ∧ s.portAt 9#16 = none := by decide

/-- DefaultPortNumbers: the first number past the table, and the last. -/
theorem test_witness_unassigned_ports : 10 ≤ (10#16).toNat ∧ 10 ≤ (0xFFFF#16).toNat := by decide

/-- ConsoleReadTakesTheNextByte, at the last byte. -/
theorem test_witness_console_byte :
    let s := consoleState [0x48#8] []
    s.portAt (s.getReg 1) = some .console ∧ s.conInPos < s.params.consoleInput.length := by decide +kernel
/-- ConsoleReadAtEndOfStream and ConsoleWriteEmitsLowByte. -/
theorem test_witness_console_end :
    State.reset.portAt (State.reset.getReg 1) = some .console ∧
    State.reset.params.consoleInput.length ≤ State.reset.conInPos := by decide +kernel
/-- HaltPortWrite, with a zero and a non-zero value; DashCellsOfThePortTable, the halt port. -/
theorem test_witness_halt_port :
    let s := startAt 0#16 [(1, 1#16)]
    s.portAt (s.getReg 1) = some .halt ∧ s.getReg 2 = 0#16 ∧ s.getReg 1 ≠ 0#16 := by decide +kernel
/-- UnrecognisedPortsAreBenign, at the first number past the table and at one equal to a port in its low byte. -/
theorem test_witness_unrecognised :
    (startAt 0#16 [(1, 10#16)]).portAt ((startAt 0#16 [(1, 10#16)]).getReg 1) = none ∧
    (startAt 0#16 [(1, 0x0100#16)]).portAt ((startAt 0#16 [(1, 0x0100#16)]).getReg 1) = none := by decide +kernel

/-- DashCellsOfThePortTable, StatusPortsReadTheSlot, SelectsStoreAnyWord, InertSlotIsSafe: the four ports of an attached
slot and of an inert one. -/
theorem test_witness_slot_ports :
    let s := diskState [] [(2, 2#16), (3, 3#16), (4, 4#16), (5, 5#16), (9, 9#16)]
    s.portAt (s.getReg 2) = some (.disk .A .blockCount) ∧ s.portAt (s.getReg 3) = some (.disk .A .selectedBlock) ∧
    s.portAt (s.getReg 4) = some (.disk .A .transferAddress) ∧ s.portAt (s.getReg 5) = some (.disk .A .operation) ∧
    (s.disk .A).attached = true ∧ s.portAt (s.getReg 9) = some (.disk .B .operation) ∧
    (s.disk .B).attached = false ∧ (s.disk .B).wf := by decide +kernel

/-- InvalidOperationsAreDropped: a value of 2 with a block in range, and a valid value with the first block out of
range. -/
theorem test_witness_dropped :
    let s := diskState [] [(1, 2#16), (2, 5#16)]
    let t := s.setDisk .A { s.diskA with selectedBlock := 1#16 }
    s.portAt (s.getReg 2) = some (.disk .A .operation) ∧ s.getReg 1 ≠ 0#16 ∧ s.getReg 1 ≠ 1#16 ∧
    t.portAt (t.getReg 2) = some (.disk .A .operation) ∧
    (t.disk .A).blockCount.toNat ≤ (t.disk .A).selectedBlock.toNat := by decide +kernel

/-- ReadBlockMovesStoreToMemory, a transfer that succeeds, with an addressed Word in mutable memory; StorageRoundTrip's
second operation. -/
theorem test_witness_read_block :
    let s := diskState [] [(2, 5#16)]
    s.Triggers (.busWrite 0 1 2) .A 0#16 ∧ (s.disk .A).wf ∧ s.storeFails = false ∧
    s.params.firmwareSize ≤ ((s.disk .A).transferAddress + BitVec.ofNat 16 255).toNat :=
  ⟨⟨0, 1, 2, rfl, by decide +kernel, by decide +kernel, by decide +kernel, by decide +kernel⟩, by decide +kernel,
    by decide +kernel, by decide +kernel⟩

/-- FailedTransferIsFatal and the failing clause of ReadBlockMovesStoreToMemory. -/
theorem test_witness_read_block_fails :
    let s := diskState [true] [(2, 5#16)]
    s.Triggers (.busWrite 0 1 2) .A 0#16 ∧ (s.disk .A).wf ∧ s.storeFails = true :=
  ⟨⟨0, 1, 2, rfl, by decide +kernel, by decide +kernel, by decide +kernel, by decide +kernel⟩, by decide +kernel,
    by decide +kernel⟩

/-- WriteBlockMovesMemoryToStore, FailedTransferIsFatal: both answers of the oracle. -/
theorem test_witness_write_block :
    let s := diskState [] [(1, 1#16), (2, 5#16)]
    let f := diskState [true] [(1, 1#16), (2, 5#16)]
    (s.Triggers (.busWrite 0 1 2) .A 1#16 ∧ (s.disk .A).wf ∧ s.storeFails = false) ∧
    (f.Triggers (.busWrite 0 1 2) .A 1#16 ∧ (f.disk .A).wf ∧ f.storeFails = true) :=
  ⟨⟨⟨0, 1, 2, rfl, by decide +kernel, by decide +kernel, by decide +kernel, by decide +kernel⟩, by decide +kernel,
    by decide +kernel⟩,
   ⟨⟨0, 1, 2, rfl, by decide +kernel, by decide +kernel, by decide +kernel, by decide +kernel⟩, by decide +kernel,
    by decide +kernel⟩⟩

/-- TheTwoSlotsShareNothing: a port of A, one of B, slots alike, and an inert slot. -/
theorem test_witness_two_slots :
    State.reset.portAt 3#16 = some (.disk .A .selectedBlock) ∧ (DiskId.B ≠ DiskId.A) ∧
    State.reset.portAt 7#16 = some (.disk .B .selectedBlock) ∧ State.reset.disk .B = State.reset.disk .A ∧
    (State.reset.disk .A).attached = false ∧ (State.reset.disk .A).wf := by decide +kernel

/-- StorageRoundTrip: a write-block that succeeds, memory overwritten, and a read-block of the same block. -/
theorem test_witness_round_trip :
    let s := diskState [] [(1, 1#16), (2, 5#16)]
    ∃ t, exec (.busWrite 0 1 2) s = .next t ∧ s.Triggers (.busWrite 0 1 2) .A 1#16 ∧ (s.disk .A).wf ∧
      s.storeFails = false ∧ State.Triggers { t with mem := [(7, 0xFFFF#16)] } (.busWrite 0 3 2) .A 0#16 ∧
      t.storeFails = false :=
  ⟨_, rfl, ⟨0, 1, 2, rfl, by decide +kernel, by decide +kernel, by decide +kernel, by decide +kernel⟩,
    by decide +kernel, by decide +kernel,
    ⟨0, 3, 2, rfl, by decide +kernel, by decide +kernel, by decide +kernel, by decide +kernel⟩, by decide +kernel⟩

/-- OnlyStoreAndReadBlockChangeMemory: a store that changes a Word. -/
theorem test_witness_memory_changes :
    let s := startAt 0#16 [(1, 7#16)]
    ∃ t, exec (.store 0 1 2) s = .next t ∧ t.memRead 0#16 ≠ s.memRead 0#16 := ⟨_, rfl, by decide +kernel⟩

/-- FirmwareNeverChanges: an address in the firmware, and a step there. -/
theorem test_witness_firmware_step :
    (3#16).toNat < (firmwareState []).params.firmwareSize ∧ ∃ t, step (firmwareState []) = .next t :=
  ⟨by decide, _, rfl⟩

/-- StoreKeepsItsLengthAndUnreachableBytes: a step, and the first byte after the last whole block. -/
theorem test_witness_store_end :
    (∃ t, step (diskState [] []) = .next t) ∧ ((diskState [] []).disk .A).blockCount.toNat * 512 ≤ 512 :=
  ⟨⟨_, rfl⟩, by decide +kernel⟩

/-- StepKeepsTheInvariant: reset meets the invariant's memory, parameter, slot and console clauses, and steps. -/
theorem test_witness_invariant : State.reset.Inv ∧ ∃ t, step State.reset = .next t :=
  ⟨⟨by decide, by decide, by decide, by decide, by intro d; cases d <;> decide, by decide, by decide⟩, _, rfl⟩

/-- EveryValidLaunchMeetsTheInvariant and InvalidLaunchIsRefused. -/
theorem test_witness_launches :
    Launch.default.Valid ∧ ¬ Launch.Valid { Launch.default with
      params := { Launch.default.params with portMap := { PortMap.default with halt := 9#16 } } } := by decide

/-- StateAfterReset: both slots present, and both absent. -/
theorem test_witness_stores :
    let l := { Launch.default with storeA := some oneBlock, storeB := some [] }
    l.storeA = some oneBlock ∧ l.storeB = some [] ∧ Launch.default.storeA = none ∧ Launch.default.storeB = none :=
  ⟨rfl, rfl, rfl, rfl⟩

/-- MemoryAfterReset: the last firmware Word, the first and last image Word, and the first Word past the image. -/
theorem test_witness_image :
    (3#16).toNat < firmwareP5.length ∧ ((4#16).toNat = firmwareP5.length + 0 ∧ 0 < [0x2403#16].length) ∧
    firmwareP5.length + [0x2403#16].length ≤ (5#16).toNat := by decide

end Sys2Proof.Tests
end

section
/-! SUPPORT. The program counter, the registers and the link of a taken jump (spec/10_state.md R21, R22, R26): what the
fetch advances, what one instruction leaves as it was, and the statements that follow. -/

namespace Sys2Proof.Machine

/-- The increment of the fetch wraps at 2^16 (R26). -/
theorem State.advanced_pc_toNat (s : State) : s.advanced.pc.toNat = (s.pc.toNat + 1) % 65536 := by
  simp [State.advanced]

/-- The advanced state, its `pc` written as the number R26 gives. -/
theorem State.setPc_ofNat_succ (s : State) :
    s.setPc (BitVec.ofNat 16 ((s.pc.toNat + 1) % 65536)) = s.advanced := by
  have hpc : BitVec.ofNat 16 ((s.pc.toNat + 1) % 65536) = s.pc + 1#16 := BitVec.eq_of_toNat_eq (by simp)
  rw [hpc, State.advanced]

/-- A running machine executes the fetched instruction in the advanced state (R100). -/
theorem step_of_running {s : State} (h : s.run = .running) : step s = exec s.fetched s.advanced := by
  simp [step, s.stopFault_eq_none.2 h]

@[simp] theorem State.busRead_regs (s : State) (p : Word) : (s.busRead p).2.regs = s.regs := by
  rcases s.busRead_state p with h | ⟨-, -, h⟩ <;> rw [h]

@[simp] theorem State.busRead_pc (s : State) (p : Word) : (s.busRead p).2.pc = s.pc := by
  rcases s.busRead_state p with h | ⟨-, -, h⟩ <;> rw [h]

@[simp] theorem State.busWrite_regs (s : State) (p v : Word) : (s.busWrite p v).regs = s.regs := by
  obtain ⟨-, hregs, -, -, -⟩ := s.busWrite_keeps p v
  exact hregs

@[simp] theorem State.busWrite_pc (s : State) (p v : Word) : (s.busWrite p v).pc = s.pc := by
  obtain ⟨-, -, -, hpc, -⟩ := s.busWrite_keeps p v
  exact hpc

/-- What a taken jump answers (R110). -/
theorem exec_jump_taken {s : State} {b : Nibble} (d a : Nibble) (h : s.getReg b ≠ 0#16) :
    exec (.jump d b a) s = .next ((s.setReg d s.pc).setPc ((s.setReg d s.pc).getReg a)) := by
  rw [exec_jump, if_pos h]

/-- A taken jump saves the `pc` it executes with in the register of its `dst` field (R110). -/
theorem exec_jump_links {s t : State} {d b a : Nibble} (h : exec (.jump d b a) s = .next t)
    (hb : s.getReg b ≠ 0#16) : t.getReg d = s.pc := by
  rw [exec_jump_taken d a hb] at h
  cases h
  simp

/-- Only a taken jump writes `pc` (R26). -/
theorem exec_keeps_pc {i : Instr} {s t : State} (h : exec i s = .next t) (hj : ¬ s.JumpTaken i) : t.pc = s.pc := by
  rcases exec_cases h with ⟨d, v, -, -, rfl⟩ | ⟨d, r, -, -, rfl⟩ | ⟨d, b, a, -, -, rfl⟩ | ⟨d, b, a, rfl, hb, -⟩ |
    ⟨d, b, a, -, rfl⟩ | ⟨d, b, a, -, rfl⟩ | ⟨d, b, a, -, rfl⟩
  · rfl
  · rfl
  · rfl
  · exact absurd ⟨d, b, a, rfl, hb⟩ hj
  · exact s.memWrite_pc _ _
  · exact s.busRead_pc _
  · exact s.busWrite_pc _ _

/-- An instruction changes no register but its destination (R22). -/
theorem exec_keeps_reg_of_ne_dest {i : Instr} {s t : State} {r : Nibble} (h : exec i s = .next t)
    (hr : destOf i ≠ some r) : t.getReg r = s.getReg r := by
  rcases exec_cases h with ⟨d, v, hd, -, rfl⟩ | ⟨d, w, hd, -, rfl⟩ | ⟨d, b, a, -, -, rfl⟩ | ⟨d, b, a, rfl, -, rfl⟩ |
    ⟨d, b, a, -, rfl⟩ | ⟨d, b, a, rfl, rfl⟩ | ⟨d, b, a, -, rfl⟩
  · exact s.setReg_keepsRegsBut d v r (by simpa [hd, eq_comm] using hr)
  · exact (s.setWide_writesRegAndOv d w).regs r (by simpa [hd, eq_comm] using hr)
  · rfl
  · exact s.setReg_keepsRegsBut d _ r (by simpa [destOf, eq_comm] using hr)
  · exact s.getReg_memWrite _ _ r
  · calc ((s.busRead (s.getReg a)).2.setReg d _).getReg r
        = (s.busRead (s.getReg a)).2.getReg r :=
          State.setReg_keepsRegsBut _ d _ r (by simpa [destOf, eq_comm] using hr)
      _ = s.getReg r := State.getReg_congr _ _ (s.busRead_regs _) r
  · exact State.getReg_congr _ _ (s.busWrite_regs _ _) r

/-- The register an instruction may write is the one its `dst` field names (R22). -/
theorem toFields_dst_of_destOf {i : Instr} {r : Nibble} (h : destOf i = some r) : i.toFields.dst = r := by
  cases i <;> cases h <;> rfl

/-- Settles O7: `pc` advances before `exec`, and `exec` writes it in a taken jump alone, which saves it first. -/
theorem pcAdvancesBeforeExecution : Obligations.PcAdvancesBeforeExecution := by
  intro s hrun
  have hstep : step s = exec (decode (s.memRead s.pc)) s.advanced := step_of_running hrun
  refine ⟨by rw [hstep, s.setPc_ofNat_succ], fun t ht => ?_⟩
  rw [hstep] at ht
  refine ⟨fun hj => ?_, fun d b a hi hb => ?_⟩
  · rw [exec_keeps_pc ht hj, s.advanced_pc_toNat]
  · rw [hi] at ht
    rw [exec_jump_links ht hb, s.advanced_pc_toNat]

/-- Settles O12: a register reads what was written, and a changed register is the destination, which the `dst` field
names. -/
theorem noRegisterIsHardwired : Obligations.NoRegisterIsHardwired := by
  refine ⟨fun s i v => ⟨s.getReg_setReg_self i v, fun j hj => s.setReg_keepsRegsBut i v j (by simpa using hj)⟩,
    fun i s t r h hne => ?_, fun s d b a hb => ?_⟩
  · have hd : destOf i = some r := by
      by_contra hd
      exact hne (exec_keeps_reg_of_ne_dest h hd)
    exact ⟨hd, toFields_dst_of_destOf hd⟩
  · have h := exec_jump_taken d a hb
    exact ⟨_, h, exec_jump_links h hb⟩

end Sys2Proof.Machine
end

section
/-! SUPPORT. Memory (spec/20_memory.md R55, R56): what a write does on each side of FIRMWARE_SIZE, and the statement that
follows. -/

namespace Sys2Proof.Machine

/-- A write below FIRMWARE_SIZE is discarded (R56). -/
theorem State.memWrite_firmware (s : State) {a : Word} (v : Word) (h : a.toNat < s.params.firmwareSize) :
    s.memWrite a v = s :=
  if_pos h

/-- A Word written at or above FIRMWARE_SIZE reads back (R56). -/
theorem State.memRead_memWrite_self (s : State) {a : Word} (v : Word) (h : s.params.firmwareSize ≤ a.toNat) :
    (s.memWrite a v).memRead a = v := by
  rw [s.memRead_memWrite a v a, if_pos ⟨rfl, h⟩]

/-- A write leaves every other address reading as before, on either side of FIRMWARE_SIZE (R56). -/
theorem State.memRead_memWrite_of_ne (s : State) {a c : Word} (v : Word) (h : c ≠ a) :
    (s.memWrite a v).memRead c = s.memRead c := by
  rw [s.memRead_memWrite a v c, if_neg fun hc => h hc.1]

/-- Settles O17: a read and a write each split on the side of FIRMWARE_SIZE their address lies on. -/
theorem memoryReadAfterWrite : Obligations.MemoryReadAfterWrite := by
  intro s a v
  exact ⟨s.memRead_firmware a, s.memRead_mutable a, s.memWrite_firmware v, s.memRead_memWrite_self v,
    fun _ => s.memRead_memWrite_of_ne v, s.memWrite_eq a v⟩

end Sys2Proof.Machine
end

section
/-! SUPPORT. The encoding (spec/30_encoding.md R82): the fields' round trips, the rule's formula, and the statement that
follows. -/

namespace Sys2Proof

/-- A Word is its four nibbles at their weights (R82). -/
theorem encodeFields_decodeFields (w : Word) : encodeFields (decodeFields w) = w := by
  have hw := w.isLt
  apply BitVec.eq_of_toNat_eq
  rw [encodeFields_toNat]
  simp only [decodeFields, nibble_toNat]
  omega

/-- Each nibble of an encoding is the field that was put there (R82). -/
theorem decodeFields_encodeFields (f : Fields) : decodeFields (encodeFields f) = f := by
  have hw := encodeFields_toNat f
  have hk := f.opcode.isLt
  have hd := f.dst.isLt
  have hb := f.src1.isLt
  have ha := f.src0.isLt
  have opcode_eq : (encodeFields f).extractLsb' 12 4 = f.opcode :=
    BitVec.eq_of_toNat_eq (by rw [nibble_toNat]; omega)
  have dst_eq : (encodeFields f).extractLsb' 8 4 = f.dst :=
    BitVec.eq_of_toNat_eq (by rw [nibble_toNat]; omega)
  have src1_eq : (encodeFields f).extractLsb' 4 4 = f.src1 :=
    BitVec.eq_of_toNat_eq (by rw [nibble_toNat]; omega)
  have src0_eq : (encodeFields f).extractLsb' 0 4 = f.src0 :=
    BitVec.eq_of_toNat_eq (by rw [nibble_toNat]; omega)
  rw [decodeFields, opcode_eq, dst_eq, src1_eq, src0_eq]

/-- A nibble shifted to a place inside the Word loses no bit. -/
theorem nibble_shiftLeft_toNat (x : Nibble) {n : Nat} (hn : n ≤ 12) :
    (x.setWidth 16 <<< n).toNat = x.toNat <<< n := by
  have hlt : x.toNat <<< n < 2 ^ 16 :=
    calc x.toNat <<< n = x.toNat * 2 ^ n := Nat.shiftLeft_eq ..
      _ < 2 ^ 4 * 2 ^ n := Nat.mul_lt_mul_of_pos_right x.isLt (Nat.two_pow_pos n)
      _ ≤ 2 ^ 4 * 2 ^ 12 := Nat.mul_le_mul_left _ (Nat.pow_le_pow_right (by decide) hn)
  rw [BitVec.toNat_shiftLeft, BitVec.toNat_setWidth_of_le (by decide), Nat.mod_eq_of_lt hlt]

/-- The formula of R82: every field shifted to its place in the layout of D1 (log 11). -/
theorem encodeFields_eq_shiftLeft_or (k d b a : Nibble) : encodeFields ⟨k, d, b, a⟩ =
    (k.setWidth 16 <<< 12) ||| (d.setWidth 16 <<< 8) ||| (b.setWidth 16 <<< 4) ||| a.setWidth 16 := by
  have hk := nibble_shiftLeft_toNat k (n := 12) (by decide)
  have hd := nibble_shiftLeft_toNat d (n := 8) (by decide)
  have hb := nibble_shiftLeft_toNat b (n := 4) (by decide)
  have ha : (a.setWidth 16).toNat = a.toNat := BitVec.toNat_setWidth_of_le (by decide)
  apply BitVec.eq_of_toNat_eq
  calc (encodeFields ⟨k, d, b, a⟩).toNat
      = ((k.toNat <<< 4 ||| d.toNat) <<< 4 ||| b.toNat) <<< 4 ||| a.toNat := by
        simp only [encodeFields, BitVec.toNat_append]
    _ = k.toNat <<< 12 ||| d.toNat <<< 8 ||| b.toNat <<< 4 ||| a.toNat := by
        simp only [Nat.shiftLeft_or_distrib, ← Nat.shiftLeft_add, Nat.reduceAdd]
    _ = _ := by rw [BitVec.toNat_or, BitVec.toNat_or, BitVec.toNat_or, hk, hd, hb, ha]

/-- Settles O1: the fields' round trips, carried to instructions by `OPCODE_MAP` being one constructor per opcode. -/
theorem decodeEncodeRoundTrip : Obligations.DecodeEncodeRoundTrip := by
  refine ⟨fun w => ?_, fun i => ?_, encodeFields_decodeFields, decodeFields_encodeFields,
    encodeFields_eq_shiftLeft_or⟩
  · rw [encode, decode, toFields_toInstr, encodeFields_decodeFields]
  · rw [decode, encode, decodeFields_encodeFields, toInstr_toFields]

end Sys2Proof
end

section
/-! SUPPORT. The step (spec/40_engine.md R100): the contract of one step. -/

namespace Sys2Proof.Machine

/-- Settles O5: a running machine steps by `step_of_running`, and by `step_next` only a running one answers a next
state. -/
theorem stepRunsDecodedInstruction : Obligations.StepRunsDecodedInstruction := by
  refine fun s => ⟨fun hrun => ?_, fun hstopped t ht => ?_⟩
  · calc step s = exec s.fetched s.advanced := step_of_running hrun
      _ = exec (decode (s.memRead s.pc)) { s with pc := s.pc + 1#16 } := rfl
  · obtain ⟨hrun, -⟩ := step_next ht
    exact hstopped hrun

end Sys2Proof.Machine
end

section
/-! SUPPORT. The I/O bus (spec/47_bus.md R185 to R188): the dispatcher on a number that names no port, and the statement
that follows. -/

namespace Sys2Proof.Machine

/-- A read of an unrecognised port returns 0 and leaves the state as it was (R188). -/
theorem State.busRead_unrecognised (s : State) {p : Word} (h : s.portAt p = none) : s.busRead p = (0#16, s) := by
  simp only [State.busRead, h, Config.defaultPortRead]

/-- A write to an unrecognised port is ignored (R188). -/
theorem State.busWrite_unrecognised (s : State) {p : Word} (v : Word) (h : s.portAt p = none) : s.busWrite p v = s := by
  simp only [State.busWrite, h]

/-- A bus read that leaves the state alone writes the Word it returns to its destination and nothing else (R180). -/
theorem exec_busRead_writesOnlyReg {s : State} {a : Nibble} {v : Word} (d b : Nibble)
    (h : s.busRead (s.getReg a) = (v, s)) : ∃ t, exec (.busRead d b a) s = .next t ∧ s.WritesOnlyReg t d v :=
  ⟨s.setReg d v, by rw [exec_busRead, h], s.setReg_writesOnlyReg d v⟩

/-- Settles O37: both dispatchers fall through to their last case when the number names no port. -/
theorem unrecognisedPortsAreBenign : Obligations.UnrecognisedPortsAreBenign := by
  intro s d b a hport
  exact ⟨exec_busRead_writesOnlyReg d b (s.busRead_unrecognised hport),
    by rw [exec_busWrite, s.busWrite_unrecognised _ hport]⟩

end Sys2Proof.Machine
end

section
/-! SUPPORT. The attachment of the controller slots (spec/70_reset_and_hazards.md R262): what an instruction leaves of
both slots, and the statement that follows. -/

namespace Sys2Proof.Machine

/-- Each slot is attached or inert as before, with the block count it had (R262). -/
def State.KeepsAttachment (s t : State) : Prop :=
  ∀ d, (t.disk d).attached = (s.disk d).attached ∧ (t.disk d).blockCount = (s.disk d).blockCount

/-- `Attach` attaches a slot exactly if there is a store (R211). -/
theorem Disk.attach_attached (store : Option (List Byte)) : (Disk.attach store).attached = store.isSome := by
  cases store <;> rfl

theorem State.keepsAttachment_of_disk_eq {s t : State} (h : ∀ d, t.disk d = s.disk d) : s.KeepsAttachment t := by
  intro d
  rw [h d]
  exact ⟨rfl, rfl⟩

/-- Replacing one slot by another of its attachment and block count keeps those of both. -/
theorem State.setDisk_keepsAttachment (s : State) {d : DiskId} {k : Disk} (ha : k.attached = (s.disk d).attached)
    (hc : k.blockCount = (s.disk d).blockCount) : s.KeepsAttachment (s.setDisk d k) := by
  intro e
  rw [s.disk_setDisk d e k]
  split
  · next he => exact he ▸ ⟨ha, hc⟩
  · exact ⟨rfl, rfl⟩

@[simp] theorem State.disk_memWrite (s : State) (a v : Word) (d : DiskId) : (s.memWrite a v).disk d = s.disk d :=
  State.disk_congr _ _ (s.memWrite_diskA a v) (s.memWrite_diskB a v) d

/-- A bus read touches no slot: what it can consume is console input (R190). -/
@[simp] theorem State.disk_busRead (s : State) (p : Word) (d : DiskId) : (s.busRead p).2.disk d = s.disk d := by
  rcases s.busRead_state p with h | ⟨-, -, h⟩ <;> rw [h]
  exact State.disk_congr s _ rfl rfl d

/-- A read-block moves bytes out of the store and leaves every slot as it was (R221). -/
@[simp] theorem State.disk_readBlock (s : State) (d : DiskId) (landed : Nat → Bool) (e : DiskId) :
    (s.readBlock d landed).disk e = s.disk e := by
  obtain ⟨m, h⟩ := s.readBlock_eq d landed
  rw [h]
  exact State.disk_congr s _ rfl rfl e

/-- A write-block replaces the bytes of its slot's store alone (R222). -/
theorem State.writeBlock_keepsAttachment (s : State) (d : DiskId) (landed : Nat → Bool) :
    s.KeepsAttachment (s.writeBlock d landed) := by
  obtain ⟨store, -, h⟩ := s.writeBlock_eq d landed
  rw [h]
  exact s.setDisk_keepsAttachment rfl rfl

/-- A bus write replaces at most one slot, whose selects or store bytes are all it changes (R214 to R222). -/
theorem State.busWrite_keepsAttachment (s : State) (p v : Word) : s.KeepsAttachment (s.busWrite p v) := by
  rcases s.busWrite_cases p v with h | ⟨-, h⟩ | ⟨-, -, h⟩ | ⟨d, -, -, h⟩ | ⟨d, -, -, h⟩ | ⟨d, -, -, -, -, h⟩ |
    ⟨d, -, -, -, -, h⟩ <;> rw [h]
  · exact State.keepsAttachment_of_disk_eq fun _ => rfl
  · exact State.keepsAttachment_of_disk_eq (State.disk_congr _ _ (s.consoleWrite_diskA v) (s.consoleWrite_diskB v))
  · exact State.keepsAttachment_of_disk_eq (State.disk_congr _ _ s.haltRun_diskA s.haltRun_diskB)
  · exact s.setDisk_keepsAttachment rfl rfl
  · exact s.setDisk_keepsAttachment rfl rfl
  · exact State.keepsAttachment_of_disk_eq fun e => by simp
  · intro e
    rw [State.disk_endTransfer]
    exact s.writeBlock_keepsAttachment d s.landed e

/-- Only a bus write touches a controller slot (R181). -/
theorem exec_disk_eq_or_busWrite {i : Instr} {s t : State} (h : exec i s = .next t) :
    (∀ d, t.disk d = s.disk d) ∨ ∃ p v, t = s.busWrite p v := by
  rcases exec_cases h with ⟨r, v, -, -, rfl⟩ | ⟨r, w, -, -, rfl⟩ | ⟨r, b, a, -, -, rfl⟩ | ⟨r, b, a, -, -, rfl⟩ |
    ⟨r, b, a, -, rfl⟩ | ⟨r, b, a, -, rfl⟩ | ⟨r, b, a, -, rfl⟩
  · exact .inl (State.disk_congr _ _ rfl rfl)
  · exact .inl (State.disk_congr _ _ rfl rfl)
  · exact .inl fun _ => rfl
  · exact .inl (State.disk_congr _ _ rfl rfl)
  · exact .inl (s.disk_memWrite _ _)
  · refine .inl fun d => ?_
    calc ((s.busRead (s.getReg a)).2.setReg r _).disk d
        = (s.busRead (s.getReg a)).2.disk d := State.disk_congr _ _ rfl rfl d
      _ = s.disk d := s.disk_busRead _ d
  · exact .inr ⟨_, _, rfl⟩

/-- No instruction attaches or detaches a slot, nor changes its block count (R262). -/
theorem exec_keepsAttachment {i : Instr} {s t : State} (h : exec i s = .next t) : s.KeepsAttachment t := by
  rcases exec_disk_eq_or_busWrite h with hd | ⟨p, v, rfl⟩
  · exact State.keepsAttachment_of_disk_eq hd
  · exact s.busWrite_keepsAttachment p v

/-- No step attaches or detaches a slot, nor changes its block count (R262): the fetch advances `pc` alone. -/
theorem step_keepsAttachment {s t : State} (h : step s = .next t) : s.KeepsAttachment t := by
  obtain ⟨-, hexec⟩ := step_next h
  intro d
  have hadv : s.advanced.disk d = s.disk d := State.disk_congr s s.advanced rfl rfl d
  rw [← hadv]
  exact exec_keepsAttachment hexec d

/-- Settles O50: reset attaches by the launch's stores, and no step changes what it attached. -/
theorem slotsAttachOnlyAtReset : Obligations.SlotsAttachOnlyAtReset :=
  ⟨fun l => ⟨Disk.attach_attached l.storeA, Disk.attach_attached l.storeB⟩, fun _ _ => step_keepsAttachment⟩

end Sys2Proof.Machine
end

section
/-! SUPPORT. What a bus read, a bus write and an instruction leave as they were (spec/20_memory.md R60, spec/47_bus.md
R180 to R193): one frame lemma for each, from which the sections below take single fields. -/

namespace Sys2Proof.Machine

/-- A bus read changes the console position alone (R60). -/
theorem State.busRead_eq (s : State) (p : Word) : ∃ n, (s.busRead p).2 = { s with conInPos := n } := by
  rcases s.busRead_state p with h | ⟨-, -, h⟩
  · exact ⟨s.conInPos, h⟩
  · exact ⟨_, h⟩

@[simp] theorem State.busRead_params (s : State) (p : Word) : (s.busRead p).2.params = s.params := by
  obtain ⟨n, h⟩ := s.busRead_eq p
  rw [h]

@[simp] theorem State.busRead_ov (s : State) (p : Word) : (s.busRead p).2.ov = s.ov := by
  obtain ⟨n, h⟩ := s.busRead_eq p
  rw [h]

@[simp] theorem State.busRead_mem (s : State) (p : Word) : (s.busRead p).2.mem = s.mem := by
  obtain ⟨n, h⟩ := s.busRead_eq p
  rw [h]

@[simp] theorem State.busRead_run (s : State) (p : Word) : (s.busRead p).2.run = s.run := by
  obtain ⟨n, h⟩ := s.busRead_eq p
  rw [h]

@[simp] theorem State.memRead_busRead (s : State) (p a : Word) : (s.busRead p).2.memRead a = s.memRead a :=
  State.memRead_congr _ _ (s.busRead_params p) (s.busRead_mem p) a

@[simp] theorem State.busWrite_params (s : State) (p v : Word) : (s.busWrite p v).params = s.params := by
  obtain ⟨hparams, -, -, -, -⟩ := s.busWrite_keeps p v
  exact hparams

@[simp] theorem State.busWrite_ov (s : State) (p v : Word) : (s.busWrite p v).ov = s.ov := by
  obtain ⟨-, -, hov, -, -⟩ := s.busWrite_keeps p v
  exact hov

@[simp] theorem State.busWrite_conInPos (s : State) (p v : Word) : (s.busWrite p v).conInPos = s.conInPos := by
  obtain ⟨-, -, -, -, hpos⟩ := s.busWrite_keeps p v
  exact hpos

@[simp] theorem State.readBlock_params (s : State) (d : DiskId) (landed : Nat → Bool) :
    (s.readBlock d landed).params = s.params := by
  obtain ⟨m, h⟩ := s.readBlock_eq d landed
  rw [h]

@[simp] theorem State.readBlock_run (s : State) (d : DiskId) (landed : Nat → Bool) :
    (s.readBlock d landed).run = s.run := by
  obtain ⟨m, h⟩ := s.readBlock_eq d landed
  rw [h]

@[simp] theorem State.readBlock_conInPos (s : State) (d : DiskId) (landed : Nat → Bool) :
    (s.readBlock d landed).conInPos = s.conInPos := by
  obtain ⟨m, h⟩ := s.readBlock_eq d landed
  rw [h]

@[simp] theorem State.readBlock_conOut (s : State) (d : DiskId) (landed : Nat → Bool) :
    (s.readBlock d landed).conOut = s.conOut := by
  obtain ⟨m, h⟩ := s.readBlock_eq d landed
  rw [h]

@[simp] theorem State.writeBlock_run (s : State) (d : DiskId) (landed : Nat → Bool) :
    (s.writeBlock d landed).run = s.run := by
  simp [State.writeBlock]

@[simp] theorem State.writeBlock_conOut (s : State) (d : DiskId) (landed : Nat → Bool) :
    (s.writeBlock d landed).conOut = s.conOut := by
  simp [State.writeBlock]

/-- A write-block reads memory and changes none of it (R222). -/
@[simp] theorem State.memRead_writeBlock (s : State) (d : DiskId) (landed : Nat → Bool) (a : Word) :
    (s.writeBlock d landed).memRead a = s.memRead a := by
  simp [State.writeBlock]

/-- No instruction changes a parameter (R13). -/
theorem exec_keeps_params {i : Instr} {s t : State} (h : exec i s = .next t) : t.params = s.params := by
  rcases exec_cases h with ⟨d, v, -, -, rfl⟩ | ⟨d, r, -, -, rfl⟩ | ⟨d, b, a, -, -, rfl⟩ | ⟨d, b, a, -, -, rfl⟩ |
    ⟨d, b, a, -, rfl⟩ | ⟨d, b, a, -, rfl⟩ | ⟨d, b, a, -, rfl⟩
  · rfl
  · rfl
  · rfl
  · rfl
  · exact s.memWrite_params _ _
  · exact s.busRead_params _
  · exact s.busWrite_params _ _

/-- Every instruction answers a next state: the hardware has no trap (R240). -/
theorem exec_answers (i : Instr) (s : State) : ∃ t, exec i s = .next t := by
  cases i with
  | jump d b a =>
    rw [exec_jump]
    split <;> exact ⟨_, rfl⟩
  | readOverflow d b a => exact ⟨_, rfl⟩
  | set d b a => exact ⟨_, rfl⟩
  | load d b a => exact ⟨_, rfl⟩
  | store d b a => exact ⟨_, rfl⟩
  | add d b a => exact ⟨_, rfl⟩
  | subtract d b a => exact ⟨_, rfl⟩
  | multiply d b a => exact ⟨_, rfl⟩
  | divide d b a => exact ⟨_, rfl⟩
  | shiftLeft d b a => exact ⟨_, rfl⟩
  | shiftRight d b a => exact ⟨_, rfl⟩
  | logicAnd d b a => exact ⟨_, rfl⟩
  | logicOr d b a => exact ⟨_, rfl⟩
  | logicNot d b a => exact ⟨_, rfl⟩
  | busRead d b a => exact ⟨_, rfl⟩
  | busWrite d b a => exact ⟨_, rfl⟩

/-- The range test of R217 as numbers. -/
theorem Disk.inRange_iff (k : Disk) : k.inRange = true ↔ k.selectedBlock.toNat < k.blockCount.toNat := by
  simp [Disk.inRange, BitVec.lt_def]

/-- A read of the console port is a console read (R185). -/
theorem State.busRead_of_console {s : State} {p : Word} (h : s.portAt p = some .console) :
    s.busRead p = s.consoleRead := by
  simp only [State.busRead, h]

/-- A write to a slot's port is that slot's business (R186). -/
theorem State.busWrite_of_disk {s : State} {p : Word} {d : DiskId} {q : DiskPort} (v : Word)
    (h : s.portAt p = some (.disk d q)) : s.busWrite p v = s.diskWrite d v q := by
  simp only [State.busWrite, h]

/-- A triggering bus_write of 0 is a read-block and the question whether it failed (R216, R224). -/
theorem exec_of_triggers_read {s : State} {i : Instr} {k : DiskId} (h : s.Triggers i k 0#16) :
    exec i s = .next ((s.readBlock k s.landed).endTransfer s.storeFails) := by
  obtain ⟨x, b, a, rfl, hport, hvalue, hattached, hrange⟩ := h
  rw [exec_busWrite, s.busWrite_of_disk _ hport, State.diskWrite, hvalue,
    s.diskOperation_read k hattached ((Disk.inRange_iff _).2 hrange)]

/-- A triggering bus_write of 1 is a write-block and the question whether it failed (R216, R224). -/
theorem exec_of_triggers_write {s : State} {i : Instr} {k : DiskId} (h : s.Triggers i k 1#16) :
    exec i s = .next ((s.writeBlock k s.landed).endTransfer s.storeFails) := by
  obtain ⟨x, b, a, rfl, hport, hvalue, hattached, hrange⟩ := h
  rw [exec_busWrite, s.busWrite_of_disk _ hport, State.diskWrite, hvalue,
    s.diskOperation_write k hattached ((Disk.inRange_iff _).2 hrange)]

end Sys2Proof.Machine
end

section
/-! SUPPORT. The run state (spec/40_engine.md R102, R103): what an instruction makes of it, and the statements that
follow. -/

namespace Sys2Proof.Machine

/-- A non-zero write to the halt port halts and does nothing else (R193). -/
theorem exec_of_halts {s : State} {i : Instr} (h : s.Halts i) : exec i s = .next s.haltRun := by
  obtain ⟨d, b, a, rfl, hport, hvalue⟩ := h
  simp [exec_busWrite, State.busWrite, hport, State.haltWrite, hvalue]

/-- A triggered operation whose transfer fails is fatal (R224). -/
theorem exec_run_of_failsTransfer {s t : State} {i : Instr} (h : exec i s = .next t) (hf : s.FailsTransfer i) :
    t.run = .fatal .storeIO := by
  obtain ⟨k, v, htrig, rfl | rfl, hfails⟩ := hf
  · rw [exec_of_triggers_read htrig] at h
    cases h
    simp [hfails]
  · rw [exec_of_triggers_write htrig] at h
    cases h
    simp [hfails]

/-- Halting and failing are two different next states of one instruction. -/
theorem State.not_failsTransfer_of_halts {s : State} {i : Instr} (h : s.Halts i) : ¬ s.FailsTransfer i := by
  intro hf
  have hrun : RunState.halted = .fatal .storeIO := exec_run_of_failsTransfer (exec_of_halts h) hf
  cases hrun

/-- An instruction that neither halts nor fails a transfer leaves the run state alone (R103). -/
theorem exec_keeps_run {i : Instr} {s t : State} (h : exec i s = .next t) (hh : ¬ s.Halts i)
    (hf : ¬ s.FailsTransfer i) : t.run = s.run := by
  rcases exec_cases h with ⟨d, v, -, -, rfl⟩ | ⟨d, r, -, -, rfl⟩ | ⟨d, b, a, -, -, rfl⟩ | ⟨d, b, a, -, -, rfl⟩ |
    ⟨d, b, a, -, rfl⟩ | ⟨d, b, a, -, rfl⟩ | ⟨d, b, a, rfl, rfl⟩
  · rfl
  · rfl
  · rfl
  · rfl
  · exact s.memWrite_run _ _
  · exact s.busRead_run _
  · have succeeds : ∀ {k v}, s.portAt (s.getReg a) = some (.disk k .operation) → (s.disk k).attached = true →
        (s.disk k).inRange = true → s.getReg b = v → v = 0#16 ∨ v = 1#16 → s.storeFails = false := by
      intro k v hport hattached hrange hvalue hop
      by_contra hfails
      exact hf ⟨k, v, ⟨d, b, a, rfl, hport, hvalue, hattached, (Disk.inRange_iff _).1 hrange⟩, hop,
        Bool.not_eq_false _ ▸ hfails⟩
    rcases s.busWrite_cases (s.getReg a) (s.getReg b) with h | ⟨-, h⟩ | ⟨hport, hvalue, -⟩ | ⟨k, -, -, h⟩ |
      ⟨k, -, -, h⟩ | ⟨k, hport, hattached, hrange, hvalue, h⟩ | ⟨k, hport, hattached, hrange, hvalue, h⟩
    · rw [h]
    · rw [h, State.consoleWrite_run]
    · exact absurd ⟨d, b, a, rfl, hport, hvalue⟩ hh
    · rw [h, State.setDisk_run]
    · rw [h, State.setDisk_run]
    · simp [h, succeeds hport hattached hrange hvalue (.inl rfl)]
    · simp [h, succeeds hport hattached hrange hvalue (.inr rfl)]

/-- The run state after an instruction, in the three exclusive cases of R103. -/
theorem exec_run_cases {i : Instr} {s t : State} (h : exec i s = .next t) :
    (s.Halts i ∧ ¬ s.FailsTransfer i ∧ t.run = .halted) ∨
    (¬ s.Halts i ∧ s.FailsTransfer i ∧ t.run = .fatal .storeIO) ∨
    (¬ s.Halts i ∧ ¬ s.FailsTransfer i ∧ t.run = s.run) := by
  by_cases hh : s.Halts i
  · have ht : t = s.haltRun := by
      rw [exec_of_halts hh] at h
      cases h
      rfl
    exact .inl ⟨hh, State.not_failsTransfer_of_halts hh, ht ▸ s.haltRun_run⟩
  · by_cases hf : s.FailsTransfer i
    · exact .inr (.inl ⟨hh, hf, exec_run_of_failsTransfer h hf⟩)
    · exact .inr (.inr ⟨hh, hf, exec_keeps_run h hh hf⟩)

/-- The same for a step: the fetch changes neither what the instruction is nor what it triggers. -/
theorem step_run_cases {s t : State} (h : step s = .next t) :
    (s.Halts s.fetched ∧ ¬ s.FailsTransfer s.fetched ∧ t.run = .halted) ∨
    (¬ s.Halts s.fetched ∧ s.FailsTransfer s.fetched ∧ t.run = .fatal .storeIO) ∨
    (¬ s.Halts s.fetched ∧ ¬ s.FailsTransfer s.fetched ∧ t.run = .running) := by
  obtain ⟨hrun, hexec⟩ := step_next h
  have hcases := exec_run_cases hexec
  rwa [show s.advanced.run = .running from hrun] at hcases

/-- Settles O9: the three cases of `step_run_cases` exclude each other, and so do their run states. -/
theorem runStateTransitions : Obligations.RunStateTransitions := by
  refine ⟨fun _ => rfl, fun s t h => ?_⟩
  obtain ⟨hrun, -⟩ := step_next h
  change s.run = .running ∧ (t.run = .halted ↔ s.Halts s.fetched) ∧
    (t.run = .fatal .storeIO ↔ s.FailsTransfer s.fetched) ∧
    (t.run = .running ↔ ¬ s.Halts s.fetched ∧ ¬ s.FailsTransfer s.fetched) ∧ t.run ≠ .fatal .decodeError
  rcases step_run_cases h with ⟨hh, hf, ht⟩ | ⟨hh, hf, ht⟩ | ⟨hh, hf, ht⟩ <;> simp [hrun, hh, hf, ht]

/-- Settles O8: every instruction answers, and the two that change the run state are bus_writes. -/
theorem noInstructionTraps : Obligations.NoInstructionTraps := by
  intro i s
  obtain ⟨t, h⟩ := exec_answers i s
  refine ⟨t, h, ?_⟩
  rcases exec_run_cases h with ⟨⟨d, b, a, hi, -⟩, -, ht⟩ | ⟨-, ⟨k, v, ⟨d, b, a, hi, -⟩, -⟩, ht⟩ | ⟨-, -, ht⟩
  · exact .inr ⟨d, b, a, hi, .inl ht⟩
  · exact .inr ⟨d, b, a, hi, .inr ht⟩
  · exact .inl ht

/-- Settles O10: the step is `haltRun` of the advanced state. -/
theorem haltingStepCompletes : Obligations.HaltingStepCompletes := by
  intro s hrun hhalts
  have hadv : s.advanced.Halts s.fetched := hhalts
  exact ⟨s.advanced.haltRun, (step_of_running hrun).trans (exec_of_halts hadv), rfl, s.advanced_pc_toNat,
    fun _ _ => rfl, rfl, fun _ => rfl, ⟨rfl, rfl, rfl, rfl, rfl, rfl⟩⟩

/-- Settles O6: a stopped machine's fault is the fault of its run state. -/
theorem stoppedMachineTakesNoStep : Obligations.StoppedMachineTakesNoStep := by
  refine fun s => ⟨fun hrun => ?_, fun r hrun => ?_⟩
  · simp [step, State.stopFault, hrun]
  · simp [step, State.stopFault, hrun]

end Sys2Proof.Machine
end

section
/-! SUPPORT. Who changes memory (spec/20_memory.md sections 2 to 4): the Words a read-block and a store can change, and
the statements that follow. -/

namespace Sys2Proof.Machine

/-- The Words a read-block changes are its 256 addressed ones outside the firmware (R221, R223). -/
theorem State.readBlock_changes (s : State) (d : DiskId) (landed : Nat → Bool) {c : Word}
    (h : (s.readBlock d landed).memRead c ≠ s.memRead c) :
    s.params.firmwareSize ≤ c.toNat ∧ (s.disk d).Covers c := by
  by_contra hno
  refine h (s.memRead_readBlock_keeps d landed c fun i hi _ hc => ?_)
  by_contra hge
  exact hno ⟨by omega, i, hi, hc⟩

/-- The Word a write changes is the addressed one, outside the firmware (R56). -/
theorem State.memWrite_changes (s : State) {a v c : Word} (h : (s.memWrite a v).memRead c ≠ s.memRead c) :
    s.params.firmwareSize ≤ c.toNat ∧ c = a := by
  rw [s.memRead_memWrite] at h
  split at h
  · next hc =>
    obtain ⟨rfl, hge⟩ := hc
    exact ⟨hge, rfl⟩
  · exact absurd rfl h

/-- A bus_write changes Words of memory only as a triggered read-block (R186, R221). -/
theorem exec_busWrite_changes {s : State} {d b a : Nibble} {c : Word}
    (h : (s.busWrite (s.getReg a) (s.getReg b)).memRead c ≠ s.memRead c) :
    s.params.firmwareSize ≤ c.toNat ∧ ∃ k, s.Triggers (.busWrite d b a) k 0#16 ∧ (s.disk k).Covers c := by
  rcases s.busWrite_cases (s.getReg a) (s.getReg b) with hw | ⟨-, hw⟩ | ⟨-, -, hw⟩ | ⟨k, -, -, hw⟩ | ⟨k, -, -, hw⟩ |
    ⟨k, hport, hattached, hrange, hvalue, hw⟩ | ⟨k, -, -, -, -, hw⟩ <;> rw [hw] at h
  · exact absurd rfl h
  · exact absurd rfl h
  · exact absurd rfl h
  · exact absurd (s.memRead_setDisk k _ c) h
  · exact absurd (s.memRead_setDisk k _ c) h
  · rw [State.memRead_endTransfer] at h
    obtain ⟨hge, hcovers⟩ := s.readBlock_changes k s.landed h
    exact ⟨hge, k, ⟨d, b, a, rfl, hport, hvalue, hattached, (Disk.inRange_iff _).1 hrange⟩, hcovers⟩
  · rw [State.memRead_endTransfer] at h
    exact absurd (s.memRead_writeBlock k s.landed c) h

/-- The instructions that reach memory are store and the bus_write that triggers a read-block, and neither reaches the
firmware (R56, R223). -/
theorem exec_changes_memRead {i : Instr} {s t : State} {c : Word} (h : exec i s = .next t)
    (hne : t.memRead c ≠ s.memRead c) :
    s.params.firmwareSize ≤ c.toNat ∧
    ((∃ d b a, i = .store d b a ∧ c = s.getReg a) ∨ (∃ k, s.Triggers i k 0#16 ∧ (s.disk k).Covers c)) := by
  rcases exec_cases h with ⟨d, v, -, -, rfl⟩ | ⟨d, r, -, -, rfl⟩ | ⟨d, b, a, -, -, rfl⟩ | ⟨d, b, a, -, -, rfl⟩ |
    ⟨d, b, a, rfl, rfl⟩ | ⟨d, b, a, -, rfl⟩ | ⟨d, b, a, rfl, rfl⟩
  · exact absurd rfl hne
  · exact absurd rfl hne
  · exact absurd rfl hne
  · exact absurd rfl hne
  · obtain ⟨hge, hc⟩ := s.memWrite_changes hne
    exact ⟨hge, .inl ⟨d, b, a, rfl, hc⟩⟩
  · exact absurd (s.memRead_busRead _ c) hne
  · obtain ⟨hge, htrig⟩ := exec_busWrite_changes (d := d) hne
    exact ⟨hge, .inr htrig⟩

/-- Settles O48, by `exec_changes_memRead`. -/
theorem onlyStoreAndReadBlockChangeMemory : Obligations.OnlyStoreAndReadBlockChangeMemory :=
  fun _ _ _ _ => exec_changes_memRead

/-- Settles O49: the fetch changes `pc` alone, and a Word that `exec` changes lies outside the firmware. -/
theorem firmwareNeverChanges : Obligations.FirmwareNeverChanges := by
  intro s t h
  obtain ⟨-, hexec⟩ := step_next h
  have hparams : t.params = s.advanced.params := exec_keeps_params hexec
  refine ⟨hparams, fun a ha => ?_⟩
  by_contra hne
  obtain ⟨hge, -⟩ := exec_changes_memRead hexec hne
  exact absurd ha (Nat.not_lt.2 hge)

/-- Settles O18: `load` is one register write. -/
theorem loadReadsMemory : Obligations.LoadReadsMemory :=
  fun s d b a => ⟨_, exec_load s d b a, s.setReg_writesOnlyReg d _⟩

/-- The frame of a memory write (R56). -/
theorem State.memWrite_keepsDevices (s : State) (a v : Word) : s.KeepsDevices (s.memWrite a v) :=
  ⟨by simp, by simp, by simp, by simp, by simp, by simp⟩

/-- Settles O19: `store` is one memory write. -/
theorem storeWritesOneWord : Obligations.StoreWritesOneWord := by
  intro s d b a
  refine ⟨_, exec_store s d b a, ?_, fun c hc => s.memRead_memWrite_of_ne _ hc,
    ⟨fun r _ => s.getReg_memWrite _ _ r, s.memWrite_ov _ _, s.memWrite_pc _ _⟩, s.memWrite_run _ _,
    s.memWrite_keepsDevices _ _⟩
  split
  · next hlt => rw [s.memWrite_firmware _ hlt]
  · next hge => rw [s.memRead_memWrite_self _ (Nat.not_lt.1 hge)]

/-- Settles O20: the load by its equation, the other instructions by `exec_changes_memRead`, the write by its three laws,
and the port read by `busRead_eq` and the two console reads. -/
theorem onlyConsoleReadsHaveSideEffects : Obligations.OnlyConsoleReadsHaveSideEffects := by
  refine ⟨fun s t d b a e h => ?_, fun i s t c h hstore hread => ?_, fun s a v => ?_, fun s t d b a h => ?_⟩
  · rw [exec_load] at h
    cases h
    refine ⟨rfl, fun hne => ⟨_, exec_load _ e b a, ?_⟩⟩
    simp [State.getReg_setReg, hne]
  · by_contra hne
    obtain ⟨-, ⟨d, b, a, hi, -⟩ | ⟨k, htrig, -⟩⟩ := exec_changes_memRead h hne
    · exact hstore d b a hi
    · exact hread k htrig
  · exact ⟨s.memRead_memWrite a v, s.memWrite_eq a v, s.memWrite_firmware v⟩
  · rw [exec_busRead] at h
    cases h
    refine ⟨fun hport => ?_, fun hport => ⟨?_, ?_⟩⟩
    · rw [s.busRead_state_of_ne _ hport]
      rfl
    · obtain ⟨n, hn⟩ := s.busRead_eq (s.getReg a)
      rw [hn]
      rfl
    · rw [State.busRead_of_console hport]
      split
      · next hin =>
        rw [s.consoleRead_byte hin]
        rfl
      · next hend =>
        rw [s.consoleRead_end (Nat.not_lt.1 hend)]
        rfl

/-- Settles O21: the fetch reads the address just written. -/
theorem fetchSeesThePrecedingStore : Obligations.FetchSeesThePrecedingStore := by
  intro s d b a hrun haddr hge
  refine ⟨_, exec_store s d b a, ?_⟩
  rw [haddr, step_of_running (by rw [s.memWrite_run, hrun]), State.fetched, s.memWrite_pc,
    s.memRead_memWrite_self _ hge, State.advanced, s.memWrite_pc]
  rfl

end Sys2Proof.Machine
end

section
/-! SUPPORT. The console histories (spec/10_state.md R31), and the statement that they only grow. -/

namespace Sys2Proof.Machine

/-- A bus write emits at most one byte (R192). -/
theorem State.busWrite_conOut (s : State) (p v : Word) :
    (s.busWrite p v).conOut = s.conOut ∨ ∃ b, (s.busWrite p v).conOut = s.conOut ++ [b] := by
  rcases s.busWrite_cases p v with h | ⟨-, h⟩ | ⟨-, -, h⟩ | ⟨d, -, -, h⟩ | ⟨d, -, -, h⟩ | ⟨d, -, -, -, -, h⟩ |
    ⟨d, -, -, -, -, h⟩ <;> rw [h]
  · exact .inl rfl
  · exact .inr ⟨_, s.consoleWrite_conOut v⟩
  · exact .inl rfl
  · exact .inl (s.setDisk_conOut d _)
  · exact .inl (s.setDisk_conOut d _)
  · exact .inl (by simp)
  · exact .inl (by simp)

/-- All that an instruction does to the console histories: nothing, one byte consumed, or one byte emitted. -/
theorem exec_console_cases {i : Instr} {s t : State} (h : exec i s = .next t) :
    (t.conInPos = s.conInPos ∧ t.conOut = s.conOut) ∨
    (t.conInPos = s.conInPos + 1 ∧ s.conInPos < s.params.consoleInput.length ∧ t.conOut = s.conOut) ∨
    (t.conInPos = s.conInPos ∧ ∃ b, t.conOut = s.conOut ++ [b]) := by
  rcases exec_cases h with ⟨d, v, -, -, rfl⟩ | ⟨d, r, -, -, rfl⟩ | ⟨d, b, a, -, -, rfl⟩ | ⟨d, b, a, -, -, rfl⟩ |
    ⟨d, b, a, -, rfl⟩ | ⟨d, b, a, -, rfl⟩ | ⟨d, b, a, -, rfl⟩
  · exact .inl ⟨rfl, rfl⟩
  · exact .inl ⟨rfl, rfl⟩
  · exact .inl ⟨rfl, rfl⟩
  · exact .inl ⟨rfl, rfl⟩
  · exact .inl ⟨s.memWrite_conInPos _ _, s.memWrite_conOut _ _⟩
  · rcases s.busRead_state (s.getReg a) with hr | ⟨-, hin, hr⟩ <;> rw [hr]
    · exact .inl ⟨rfl, rfl⟩
    · exact .inr (.inl ⟨rfl, hin, rfl⟩)
  · rcases s.busWrite_conOut (s.getReg a) (s.getReg b) with hout | hout
    · exact .inl ⟨s.busWrite_conInPos _ _, hout⟩
    · exact .inr (.inr ⟨s.busWrite_conInPos _ _, hout⟩)

/-- Settles O51: the three cases of `exec_console_cases`, in a state whose histories the fetch leaves alone. -/
theorem consoleHistoriesOnlyGrow : Obligations.ConsoleHistoriesOnlyGrow := by
  intro s t h
  obtain ⟨-, hexec⟩ := step_next h
  rcases exec_console_cases hexec with ⟨hin, hout⟩ | ⟨hin, hlt, hout⟩ | ⟨hin, b, hout⟩
  · exact ⟨.inl hin, .inl hout⟩
  · exact ⟨.inr ⟨hin, hlt⟩, .inl hout⟩
  · exact ⟨.inl hin, .inr ⟨b, hout, hin⟩⟩

end Sys2Proof.Machine
end

section
/-! SUPPORT. The backing stores (spec/10_state.md R30, spec/48_block_storage.md R210, R211, R222): the bytes of a block,
what a write-block makes of them, and the statement on a store's length and its unreachable bytes. -/

namespace Sys2Proof.Machine

/-- The block count of a store of `n` bytes as a number: the cap keeps it inside a Word (R211). -/
theorem Disk.countOf_toNat (n : Nat) : (Disk.countOf n).toNat = min (n / 512) 65535 := by
  simp only [Disk.countOf, BitVec.toNat_ofNat, Config.blockBytes, Config.blockCountCap]
  exact Nat.mod_eq_of_lt (by omega)

/-- A byte outside the selected block survives a write-block (R222). -/
theorem State.writeBlock_store_outside (s : State) (d : DiskId) (landed : Nat → Bool) {n : Nat}
    (h : n < (s.disk d).base ∨ (s.disk d).base + 512 ≤ n) :
    ((s.writeBlock d landed).disk d).store[n]? = (s.disk d).store[n]? := by
  have hold : s.storedByte (s.disk d) landed n = id := by
    funext old
    refine if_neg fun hin => ?_
    simp only [Config.blockBytes] at hin
    omega
  rw [s.writeBlock_store, hold, Option.map_id_fun, id]

/-- A write-block leaves the other slot alone (R222, R194). -/
theorem State.writeBlock_disk_of_ne (s : State) {d e : DiskId} (landed : Nat → Bool) (h : e ≠ d) :
    (s.writeBlock d landed).disk e = s.disk e := by
  simp [State.writeBlock, h]

/-- The slot of a write-block keeps all but its bytes (R219, R222). -/
theorem State.writeBlock_disk_self (s : State) (d : DiskId) (landed : Nat → Bool) :
    (s.writeBlock d landed).disk d =
      { s.disk d with store := (s.disk d).store.mapIdx (s.storedByte (s.disk d) landed) } := by
  simp [State.writeBlock]

/-- `k'` has a store of the same length as `k`, and of the same bytes past the last whole block that `k` counts. -/
def Disk.KeepsReach (k k' : Disk) : Prop :=
  k'.store.length = k.store.length ∧ ∀ n, k.blockCount.toNat * 512 ≤ n → k'.store[n]? = k.store[n]?

theorem Disk.keepsReach_of_store_eq {k k' : Disk} (h : k'.store = k.store) : k.KeepsReach k' :=
  ⟨by rw [h], fun n _ => by rw [h]⟩

/-- A block in range ends at or before the end of the last whole block (R217). -/
theorem Disk.base_add_le (k : Disk) (h : k.inRange = true) : k.base + 512 ≤ k.blockCount.toNat * 512 :=
  calc k.base + 512 = (k.selectedBlock.toNat + 1) * 512 := (Nat.succ_mul _ _).symm
    _ ≤ k.blockCount.toNat * 512 := Nat.mul_le_mul_right 512 (k.inRange_iff.1 h)

/-- A write-block in range keeps its store's length and unreachable bytes (R222). -/
theorem State.writeBlock_keepsReach (s : State) (d : DiskId) (landed : Nat → Bool)
    (hrange : (s.disk d).inRange = true) : (s.disk d).KeepsReach ((s.writeBlock d landed).disk d) :=
  ⟨by simp [State.writeBlock], fun _ hn =>
    s.writeBlock_store_outside d landed (.inr ((Disk.base_add_le _ hrange).trans hn))⟩

/-- Replacing a slot by one of the same store keeps every store. -/
theorem State.setDisk_keepsReach (s : State) {d : DiskId} {k : Disk} (h : k.store = (s.disk d).store) (e : DiskId) :
    (s.disk e).KeepsReach ((s.setDisk d k).disk e) := by
  rw [s.disk_setDisk]
  split
  · next he => exact Disk.keepsReach_of_store_eq (he ▸ h)
  · exact Disk.keepsReach_of_store_eq rfl

/-- A bus write keeps every store's length and unreachable bytes (R30). -/
theorem State.busWrite_keepsReach (s : State) (p v : Word) (e : DiskId) :
    (s.disk e).KeepsReach ((s.busWrite p v).disk e) := by
  rcases s.busWrite_cases p v with h | ⟨-, h⟩ | ⟨-, -, h⟩ | ⟨d, -, -, h⟩ | ⟨d, -, -, h⟩ | ⟨d, -, -, -, -, h⟩ |
    ⟨d, -, -, hrange, -, h⟩ <;> rw [h]
  · exact Disk.keepsReach_of_store_eq rfl
  · exact Disk.keepsReach_of_store_eq rfl
  · exact Disk.keepsReach_of_store_eq rfl
  · exact s.setDisk_keepsReach (by rfl) e
  · exact s.setDisk_keepsReach (by rfl) e
  · exact Disk.keepsReach_of_store_eq (by simp)
  · rw [State.disk_endTransfer]
    by_cases he : e = d
    · subst he
      exact s.writeBlock_keepsReach e s.landed hrange
    · exact Disk.keepsReach_of_store_eq (by rw [s.writeBlock_disk_of_ne s.landed he])

/-- Settles O59: only a bus write reaches a slot, and an in-range block ends inside the counted blocks. -/
theorem storeKeepsItsLengthAndUnreachableBytes : Obligations.StoreKeepsItsLengthAndUnreachableBytes := by
  intro s t h k
  obtain ⟨-, hexec⟩ := step_next h
  change (s.advanced.disk k).KeepsReach (t.disk k)
  rcases exec_disk_eq_or_busWrite hexec with hd | ⟨p, v, rfl⟩
  · exact Disk.keepsReach_of_store_eq (by rw [hd k])
  · exact s.advanced.busWrite_keepsReach p v k

end Sys2Proof.Machine
end

section
/-! SUPPORT. The invariant (spec/10_state.md sections 4 to 7): each shared operation keeps it, so every instruction and
every step does. -/

namespace Sys2Proof.Machine

/-- The invariant looks at the parameters, memory, the slots, the console position and the run state. -/
theorem State.Inv.congr {s t : State} (h : s.Inv) (hparams : t.params = s.params) (hmem : t.mem = s.mem)
    (hdisk : ∀ d, t.disk d = s.disk d) (hpos : t.conInPos = s.conInPos) (hrun : t.run = s.run) : t.Inv where
  memory := hmem ▸ h.memory
  inside := by rw [hparams, hmem]; exact h.inside
  firmware := hparams ▸ h.firmware
  ports := hparams ▸ h.ports
  slots d := by rw [hdisk d]; exact h.slots d
  console := by rw [hparams, hpos]; exact h.console
  noDecodeError := hrun ▸ h.noDecodeError

theorem State.Inv.memWrite {s : State} (h : s.Inv) (a v : Word) : (s.memWrite a v).Inv := by
  obtain ⟨hwf, hin⟩ := s.memWrite_keeps_wf a v h.memory h.inside
  exact
    { memory := hwf
      inside := by rw [s.memWrite_params]; exact hin
      firmware := by rw [s.memWrite_params]; exact h.firmware
      ports := by rw [s.memWrite_params]; exact h.ports
      slots := fun d => by rw [s.disk_memWrite]; exact h.slots d
      console := by rw [s.memWrite_params, s.memWrite_conInPos]; exact h.console
      noDecodeError := by rw [s.memWrite_run]; exact h.noDecodeError }

/-- A run state that is not `fatal(DecodeError)` may replace the old one. -/
theorem State.Inv.setRun {s : State} (h : s.Inv) {r : RunState} (hr : r ≠ .fatal .decodeError) :
    State.Inv { s with run := r } :=
  { h with slots := fun d => h.slots d, noDecodeError := hr }

/-- A well-formed slot may replace the old one. -/
theorem State.Inv.setDisk {s : State} (h : s.Inv) {d : DiskId} {k : Disk} (hk : k.wf) : (s.setDisk d k).Inv where
  memory := by rw [s.setDisk_mem]; exact h.memory
  inside := by rw [s.setDisk_params, s.setDisk_mem]; exact h.inside
  firmware := by rw [s.setDisk_params]; exact h.firmware
  ports := by rw [s.setDisk_params]; exact h.ports
  slots e := by
    rw [s.disk_setDisk]
    split
    · exact hk
    · exact h.slots e
  console := by rw [s.setDisk_params, s.setDisk_conInPos]; exact h.console
  noDecodeError := by rw [s.setDisk_run]; exact h.noDecodeError

/-- The next console byte may be consumed while one is left (R190). -/
theorem State.Inv.consume {s : State} (h : s.Inv) (hin : s.conInPos < s.params.consoleInput.length) :
    State.Inv { s with conInPos := s.conInPos + 1 } :=
  { h with slots := fun d => h.slots d, console := hin }

/-- An attached slot that keeps its count and its store's length is well formed, whatever its selects and bytes. -/
theorem Disk.wf_of_attached {k k' : Disk} (hk : k.wf) (hattached : k.attached = true)
    (hattached' : k'.attached = true) (hcount : k'.blockCount = k.blockCount)
    (hlen : k'.store.length = k.store.length) : k'.wf := by
  simp only [Disk.wf, hattached, hattached', if_true] at hk ⊢
  rw [hcount, hlen, hk]

theorem State.Inv.readBlock {s : State} (h : s.Inv) (d : DiskId) (landed : Nat → Bool) :
    (s.readBlock d landed).Inv :=
  s.readBlock_induct (P := State.Inv) d landed h fun _ a v ht => ht.memWrite a v

theorem State.Inv.writeBlock {s : State} (h : s.Inv) {d : DiskId} (landed : Nat → Bool)
    (hattached : (s.disk d).attached = true) : (s.writeBlock d landed).Inv := by
  obtain ⟨store, hlen, heq⟩ := s.writeBlock_eq d landed
  rw [heq]
  exact h.setDisk (Disk.wf_of_attached (h.slots d) hattached hattached rfl hlen)

theorem State.Inv.endTransfer {s : State} (h : s.Inv) (fails : Bool) : (s.endTransfer fails).Inv := by
  have hcount : State.Inv { s with storeOps := s.storeOps + 1 } := h.congr rfl rfl (fun _ => rfl) rfl rfl
  cases fails
  · exact hcount
  · exact hcount.setRun (by decide)

theorem State.Inv.busRead {s : State} (h : s.Inv) (p : Word) : (s.busRead p).2.Inv := by
  rcases s.busRead_state p with hr | ⟨-, hin, hr⟩ <;> rw [hr]
  · exact h
  · exact h.consume hin

theorem State.Inv.busWrite {s : State} (h : s.Inv) (p v : Word) : (s.busWrite p v).Inv := by
  rcases s.busWrite_cases p v with hw | ⟨-, hw⟩ | ⟨-, -, hw⟩ | ⟨d, -, ha, hw⟩ | ⟨d, -, ha, hw⟩ | ⟨d, -, -, -, -, hw⟩ |
    ⟨d, -, ha, -, -, hw⟩ <;> rw [hw]
  · exact h
  · exact h.congr rfl rfl (fun _ => rfl) rfl rfl
  · exact h.setRun (by decide)
  · exact h.setDisk (Disk.wf_of_attached (h.slots d) ha ha rfl rfl)
  · exact h.setDisk (Disk.wf_of_attached (h.slots d) ha ha rfl rfl)
  · exact (h.readBlock d s.landed).endTransfer _
  · exact (h.writeBlock s.landed ha).endTransfer _

/-- Every instruction keeps the invariant. -/
theorem State.Inv.exec {i : Instr} {s t : State} (h : s.Inv) (hexec : exec i s = .next t) : t.Inv := by
  rcases exec_cases hexec with ⟨d, v, -, -, rfl⟩ | ⟨d, r, -, -, rfl⟩ | ⟨d, b, a, -, -, rfl⟩ |
    ⟨d, b, a, -, -, rfl⟩ | ⟨d, b, a, -, rfl⟩ | ⟨d, b, a, -, rfl⟩ | ⟨d, b, a, -, rfl⟩
  · exact h.congr rfl rfl (fun _ => rfl) rfl rfl
  · exact h.congr rfl rfl (fun _ => rfl) rfl rfl
  · exact h
  · exact h.congr rfl rfl (fun _ => rfl) rfl rfl
  · exact h.memWrite _ _
  · exact (h.busRead _).congr rfl rfl (fun _ => rfl) rfl rfl
  · exact h.busWrite _ _

/-- Settles O52: the fetch changes `pc` alone, of which the invariant does not speak, and every instruction keeps it. -/
theorem stepKeepsTheInvariant : Obligations.StepKeepsTheInvariant := by
  intro s t hinv h
  obtain ⟨-, hexec⟩ := step_next h
  have hadv : s.advanced.Inv := hinv.congr rfl rfl (fun _ => rfl) rfl rfl
  exact hadv.exec hexec

end Sys2Proof.Machine
end

section
/-! SUPPORT. Updates that a controller slot's ports neither see nor touch (spec/10_state.md R23, spec/47_bus.md R194): a
bus write does the same before and after one. The overflow register is such an update for both slots, and each slot is
one for the other. -/

namespace Sys2Proof.Machine

/-- `u` changes nothing that an operation of slot `d` looks at, and commutes with all that one writes. -/
structure State.HiddenFromSlot (u : State → State) (d : DiskId) : Prop where
  params : ∀ s, (u s).params = s.params
  storeOps : ∀ s, (u s).storeOps = s.storeOps
  disk : ∀ s, (u s).disk d = s.disk d
  memRead : ∀ s a, (u s).memRead a = s.memRead a
  memWrite : ∀ s a v, (u s).memWrite a v = u (s.memWrite a v)
  setDisk : ∀ s k, (u s).setDisk d k = u (s.setDisk d k)
  endTransfer : ∀ s f, (u s).endTransfer f = u (s.endTransfer f)

variable {u : State → State} {d : DiskId}

theorem State.HiddenFromSlot.storeFails (h : State.HiddenFromSlot u d) (s : State) :
    (u s).storeFails = s.storeFails := by
  unfold State.storeFails
  rw [h.params, h.storeOps]

theorem State.HiddenFromSlot.landed (h : State.HiddenFromSlot u d) (s : State) : (u s).landed = s.landed := by
  funext i
  unfold State.landed
  rw [h.storeFails, h.storeOps]

theorem State.HiddenFromSlot.readBlock (h : State.HiddenFromSlot u d) (s : State) (landed : Nat → Bool) :
    (u s).readBlock d landed = u (s.readBlock d landed) := by
  unfold State.readBlock
  rw [h.disk]
  generalize s.disk d = k
  induction Config.blockWords with
  | zero => rfl
  | succ n ih =>
    rw [List.range_succ, List.foldl_append, List.foldl_append, ih]
    simp only [List.foldl_cons, List.foldl_nil, State.readBlockWord]
    split
    · exact h.memWrite _ _ _
    · rfl

theorem State.HiddenFromSlot.writeBlock (h : State.HiddenFromSlot u d) (s : State) (landed : Nat → Bool) :
    (u s).writeBlock d landed = u (s.writeBlock d landed) := by
  have hbyte : ∀ k, (u s).storedByte k landed = s.storedByte k landed := by
    intro k
    funext offset old
    simp only [State.storedByte, State.blockByte, h.memRead]
  unfold State.writeBlock
  rw [h.disk, hbyte, h.setDisk]

theorem State.HiddenFromSlot.diskOperation (h : State.HiddenFromSlot u d) (s : State) (v : Word) :
    (u s).diskOperation d v = u (s.diskOperation d v) := by
  unfold State.diskOperation
  rw [h.disk, h.landed, h.storeFails, h.readBlock, h.writeBlock, h.endTransfer, h.endTransfer]
  split_ifs <;> rfl

/-- A write to any port of the slot commutes with the update. -/
theorem State.HiddenFromSlot.diskWrite (h : State.HiddenFromSlot u d) (s : State) (v : Word) (q : DiskPort) :
    (u s).diskWrite d v q = u (s.diskWrite d v q) := by
  cases q with
  | blockCount => rfl
  | selectedBlock =>
    simp only [State.diskWrite, State.diskSelectBlock, h.disk, h.setDisk]
    split <;> rfl
  | transferAddress =>
    simp only [State.diskWrite, State.diskSelectAddress, h.disk, h.setDisk]
    split <;> rfl
  | operation => exact h.diskOperation s v

/-- No slot looks at `ov`. -/
theorem State.setOv_hiddenFromSlot (v : Word) (d : DiskId) : State.HiddenFromSlot (·.setOv v) d where
  params _ := rfl
  storeOps _ := rfl
  disk _ := rfl
  memRead _ _ := rfl
  memWrite s a x := s.memWrite_setOv v a x
  setDisk s k := by cases d <;> rfl
  endTransfer s f := by cases f <;> rfl

/-- No slot looks at the other one. -/
theorem State.setDisk_hiddenFromSlot {e d : DiskId} (hne : e ≠ d) (x : Disk) :
    State.HiddenFromSlot (·.setDisk e x) d where
  params s := s.setDisk_params e x
  storeOps s := s.setDisk_storeOps e x
  disk s := by rw [s.disk_setDisk, if_neg hne.symm]
  memRead s a := s.memRead_setDisk e x a
  memWrite s a v := s.memWrite_setDisk e x a v
  setDisk s k := by
    cases e <;> cases d
    · exact absurd rfl hne
    · rfl
    · rfl
    · exact absurd rfl hne
  endTransfer s f := by cases e <;> cases f <;> rfl

end Sys2Proof.Machine
end

section
/-! SUPPORT. The overflow register (spec/10_state.md R23, spec/44_arithmetic.md R145): who writes it and who reads it,
and the statement that follows. -/

namespace Sys2Proof.Machine

/-- A wide result overwrites `ov`, whatever it held (R145). -/
theorem State.setWide_setOv (s : State) (v : Word) (d : Nibble) (r : Wide) :
    (s.setOv v).setWide d r = s.setWide d r := rfl

/-- A bus read does not look at `ov`. -/
theorem State.busRead_setOv (s : State) (v p : Word) :
    (s.setOv v).busRead p = ((s.busRead p).1, (s.busRead p).2.setOv v) := by
  unfold State.busRead
  rw [show (s.setOv v).portAt p = s.portAt p from rfl]
  split
  · simp only [State.consoleRead, State.setOv_params, State.setOv_conInPos]
    split <;> rfl
  · rfl
  · rfl
  · rfl

/-- A bus write does not look at `ov`. -/
theorem State.busWrite_setOv (s : State) (v p x : Word) :
    (s.setOv v).busWrite p x = (s.busWrite p x).setOv v := by
  unfold State.busWrite
  rw [show (s.setOv v).portAt p = s.portAt p from rfl]
  split
  · rfl
  · unfold State.haltWrite
    split <;> rfl
  · next d q _ => exact (State.setOv_hiddenFromSlot v d).diskWrite s x q
  · rfl

/-- Only the four arithmetic instructions write `ov` (R23). -/
theorem exec_keeps_ov {i : Instr} {s t : State} (h : exec i s = .next t) (hi : writesOverflow i = false) :
    t.ov = s.ov := by
  rcases exec_cases h with ⟨d, v, -, -, rfl⟩ | ⟨d, r, -, hw, -⟩ | ⟨d, b, a, -, -, rfl⟩ | ⟨d, b, a, -, -, rfl⟩ |
    ⟨d, b, a, -, rfl⟩ | ⟨d, b, a, -, rfl⟩ | ⟨d, b, a, -, rfl⟩
  · rfl
  · exact absurd hi (by simp [hw])
  · rfl
  · rfl
  · exact s.memWrite_ov _ _
  · exact s.busRead_ov _
  · exact s.busWrite_ov _ _

/-- The four arithmetic instructions do not look at `ov`, and overwrite it (R145). -/
theorem exec_setOv_of_writesOverflow {i : Instr} (s : State) (v : Word) (hi : writesOverflow i = true) :
    exec i (s.setOv v) = exec i s := by
  cases i with
  | add d b a => exact congrArg Host.Outcome.next (s.setWide_setOv v d _)
  | subtract d b a => exact congrArg Host.Outcome.next (s.setWide_setOv v d _)
  | multiply d b a => exact congrArg Host.Outcome.next (s.setWide_setOv v d _)
  | divide d b a => exact congrArg Host.Outcome.next (s.setWide_setOv v d _)
  | jump | readOverflow | set | load | store | shiftLeft | shiftRight | logicAnd | logicOr | logicNot | busRead
  | busWrite => cases hi

/-- Every other instruction but read_overflow does the same whatever `ov` holds (R120). -/
theorem exec_setOv_of_not_reads {i : Instr} {s t : State} (v : Word) (h : exec i s = .next t)
    (hi : writesOverflow i = false) (hread : ∀ d b a, i ≠ .readOverflow d b a) :
    exec i (s.setOv v) = .next (t.setOv v) := by
  cases i with
  | add | subtract | multiply | divide => cases hi
  | readOverflow d b a => exact absurd rfl (hread d b a)
  | jump d b a =>
    rw [exec_jump] at h ⊢
    rw [s.getReg_setOv]
    split at h <;> cases h
    · next hb => exact if_pos hb
    · next hb => exact if_neg hb
  | store d b a =>
    cases h
    exact congrArg Host.Outcome.next (s.memWrite_setOv v _ _)
  | busRead d b a =>
    cases h
    rw [exec_busRead, s.getReg_setOv, s.busRead_setOv]
    rfl
  | busWrite d b a =>
    cases h
    exact congrArg Host.Outcome.next (s.busWrite_setOv v _ _)
  | set | load | shiftLeft | shiftRight | logicAnd | logicOr | logicNot =>
    cases h
    rfl

/-- Settles O26: the writers overwrite `ov` unseen, and the others but read_overflow commute with a change of it. -/
theorem overflowRegisterIsolation : Obligations.OverflowRegisterIsolation :=
  fun _ s _ v h => ⟨exec_keeps_ov h, fun hi => (exec_setOv_of_writesOverflow s v hi).trans h,
    exec_setOv_of_not_reads v h⟩

end Sys2Proof.Machine
end

section
/-! SUPPORT. The port map (spec/47_bus.md R185 to R187): the number of each port, that an injective map's numbers name
their ports and nothing else does, and the statements that follow. -/

namespace Sys2Proof.Machine

/-- The number of a port under a map (R187). -/
def PortMap.numberOf (m : PortMap) : Port → Word
  | .console => m.console
  | .halt => m.halt
  | .disk .A q => DiskPorts.number m.diskA q
  | .disk .B q => DiskPorts.number m.diskB q

/-- The ten ports, in the order of R187. -/
def Port.all : List Port :=
  [.console, .halt,
   .disk .A .blockCount, .disk .A .selectedBlock, .disk .A .transferAddress, .disk .A .operation,
   .disk .B .blockCount, .disk .B .selectedBlock, .disk .B .transferAddress, .disk .B .operation]

theorem Port.mem_all (q : Port) : q ∈ Port.all := by
  rcases q with _ | _ | ⟨d, q⟩
  · decide
  · decide
  · cases d <;> cases q <;> decide

theorem PortMap.numbers_eq_map (m : PortMap) : m.numbers = Port.all.map (PortMap.numberOf m) := rfl

theorem PortMap.numberOf_mem (m : PortMap) (q : Port) : PortMap.numberOf m q ∈ m.numbers := by
  rw [PortMap.numbers_eq_map]
  exact List.mem_map_of_mem (Port.mem_all q)

/-- Two ports of an injective map have two numbers (D32). -/
theorem PortMap.numberOf_inj {m : PortMap} (h : m.Injective) {q r : Port}
    (heq : PortMap.numberOf m q = PortMap.numberOf m r) : q = r := by
  rw [PortMap.Injective, PortMap.numbers_eq_map] at h
  exact List.inj_on_of_nodup_map h (Port.mem_all q) (Port.mem_all r) heq

/-- What a slot's dispatcher finds is the port of that number (R186). -/
theorem DiskPorts.find_sound {m : DiskPorts} {d : DiskId} {p : Word} {q : Port} (h : DiskPorts.find m d p = some q) :
    ∃ r, q = .disk d r ∧ p = DiskPorts.number m r := by
  unfold DiskPorts.find at h
  split_ifs at h with h1 h2 h3 h4 <;> cases h
  · exact ⟨_, rfl, h1⟩
  · exact ⟨_, rfl, h2⟩
  · exact ⟨_, rfl, h3⟩
  · exact ⟨_, rfl, h4⟩

/-- What the dispatcher finds is the port of that number, whether or not the map is injective (R185). -/
theorem PortMap.find_sound {m : PortMap} {p : Word} {q : Port} (h : PortMap.find m p = some q) :
    p = PortMap.numberOf m q := by
  unfold PortMap.find at h
  split_ifs at h with hc hh
  · cases h
    exact hc
  · cases h
    exact hh
  · rcases Option.or_eq_some_iff.1 h with hA | ⟨-, hB⟩
    · obtain ⟨r, rfl, hp⟩ := DiskPorts.find_sound hA
      exact hp
    · obtain ⟨r, rfl, hp⟩ := DiskPorts.find_sound hB
      exact hp

/-- The dispatcher finds nothing exactly for the Words that are no port's number (R188): both sides are the same ten
disequations. -/
theorem PortMap.find_eq_none_iff (m : PortMap) (p : Word) : PortMap.find m p = none ↔ p ∉ m.numbers := by
  simp only [PortMap.find, DiskPorts.find, ite_eq_iff', PortMap.numbers, Option.or_eq_none_iff, reduceCtorEq,
    imp_false, List.mem_cons, List.not_mem_nil, or_false, not_or]
  tauto

/-- Under an injective map the number of a port names it (R187). -/
theorem State.portAt_numberOf {s : State} (h : s.params.portMap.Injective) (q : Port) :
    s.portAt (PortMap.numberOf s.params.portMap q) = some q := by
  cases hfind : s.portAt (PortMap.numberOf s.params.portMap q) with
  | none => exact absurd (PortMap.numberOf_mem _ q) ((PortMap.find_eq_none_iff _ _).1 hfind)
  | some r => rw [PortMap.numberOf_inj h (PortMap.find_sound hfind)]

/-- Settles O58: the ten cases of `portAt_numberOf`, the dispatcher's soundness, and its default. -/
theorem portMapNumbersNameTheirPorts : Obligations.PortMapNumbersNameTheirPorts := by
  intro s hinj
  have hname := State.portAt_numberOf hinj
  exact ⟨hname .console, hname .halt,
    hname (.disk .A .blockCount), hname (.disk .A .selectedBlock),
    hname (.disk .A .transferAddress), hname (.disk .A .operation),
    hname (.disk .B .blockCount), hname (.disk .B .selectedBlock),
    hname (.disk .B .transferAddress), hname (.disk .B .operation),
    fun p p' q hp hp' => (PortMap.find_sound hp).trans (PortMap.find_sound hp').symm,
    fun p hp => (PortMap.find_eq_none_iff _ p).2 hp⟩

/-- Settles O32: the default map is injective, so O58 speaks of it; none of its numbers is 10 or more. -/
theorem defaultPortNumbers : Obligations.DefaultPortNumbers := by
  have hmap : State.reset.params.portMap = PortMap.default := rfl
  have hnames := portMapNumbersNameTheirPorts State.reset
  rw [hmap] at hnames
  obtain ⟨hcon, hhalt, hA2, hA3, hA4, hA5, hB6, hB7, hB8, hB9, -, hnone⟩ := hnames (by decide)
  refine ⟨hcon, hhalt, hA2, hA3, hA4, hA5, hB6, hB7, hB8, hB9, ?_⟩
  intro p hp
  apply hnone
  intro hmem
  have hsmall : ∀ w ∈ PortMap.default.numbers, w.toNat < 10 := by simp [PortMap.numbers, PortMap.default]
  exact absurd (hsmall p hmem) (Nat.not_lt.2 hp)

end Sys2Proof.Machine
end

section
/-! SUPPORT. Decoded fields (spec/30_encoding.md R81, R84, R85): what the four fields of a decoded Word are as numbers, the
worked words, and the fields that do nothing. -/

namespace Sys2Proof.Machine

/-- The fields of a decoded Word are the fields cut out of it (R82, R85). -/
theorem decode_toFields (w : Word) : (decode w).toFields = decodeFields w :=
  toFields_toInstr (decodeFields w)

/-- Settles O2: each field is the nibble at its place in the layout of D1. -/
theorem decodedFieldsAreTheNibbles : Obligations.DecodedFieldsAreTheNibbles := by
  intro w
  have hw := w.isLt
  rw [decode_toFields]
  simp only [decodeFields, nibble_toNat]
  omega

/-- Settles O3, by decoding the sixteen words. -/
theorem specWordsDecode : Obligations.SpecWordsDecode := by
  unfold Obligations.SpecWordsDecode
  decide

/-- Settles O4: the equation of each instruction does not name the fields it does not use. -/
theorem unusedFieldsHaveNoEffect : Obligations.UnusedFieldsHaveNoEffect := by
  intro s d d' b b' a a'
  simp only [exec_readOverflow, exec_load, exec_store, exec_logicNot, exec_busRead, exec_busWrite, and_self]

end Sys2Proof.Machine
end

section
/-! SUPPORT. The registers and control transfer (spec/10_state.md section 1, spec/41_jump.md, spec/30_encoding.md
section 4): the two answers of a jump, and the statements on them, on the destination register and on the words that
change no state. -/

namespace Sys2Proof.Machine

/-- Writing back what a register holds changes nothing. -/
theorem State.setReg_getReg (s : State) (d : Nibble) : s.setReg d (s.getReg d) = s := by
  have hregs : s.regs.set d.toNat (s.regs[d.toNat]'d.isLt) d.isLt = s.regs := Vector.set_getElem_self d.isLt
  simp only [State.setReg, State.getReg, hregs]

/-- What a jump that is not taken answers (R110). -/
theorem exec_jump_not_taken {s : State} {b : Nibble} (d a : Nibble) (h : s.getReg b = 0#16) :
    exec (.jump d b a) s = .next s := by
  rw [exec_jump, if_neg (not_not.2 h)]

/-- Settles O11, by `exec_keeps_reg_of_ne_dest`. -/
theorem onlyTheDestinationRegisterChanges : Obligations.OnlyTheDestinationRegisterChanges :=
  fun _ _ _ _ => exec_keeps_reg_of_ne_dest

/-- Settles O14, by `exec_jump_not_taken`. -/
theorem jumpNotTakenIsNoOp : Obligations.JumpNotTakenIsNoOp :=
  fun _ d _ a => exec_jump_not_taken d a

/-- Settles O13: a taken jump is two writes, and the target is read between them (D5). -/
theorem takenJumpLinksAndGoes : Obligations.TakenJumpLinksAndGoes := by
  intro s d b a hb
  have hjump := exec_jump_taken d a hb
  exact ⟨_, hjump, exec_jump_links hjump hb, s.getReg_setReg d a s.pc, s.setReg_keepsRegsBut d s.pc, rfl, rfl,
    fun _ => rfl, ⟨rfl, rfl, rfl, rfl, rfl, rfl⟩⟩

/-- Settles O31: `logic_or` of a register into itself writes back what it holds; the all-zero word is a jump by D2, to its
own link by D5. -/
theorem noOperationWords : Obligations.NoOperationWords := by
  intro s d
  have hzero : decode 0x0000#16 = .jump 0 0 0 := by decide
  refine ⟨?_, fun h0 => ?_, fun h0 => ?_⟩
  · rw [exec_logicOr, BitVec.or_self, s.setReg_getReg]
  · rw [hzero, exec_jump_not_taken 0 0 h0]
  · rw [hzero, exec_jump_taken 0 0 h0, s.getReg_setReg_self]
    rfl

end Sys2Proof.Machine
end

section
/-! SUPPORT. The instructions that write one register (spec/42_move.md, spec/45_shift.md, spec/46_logic.md): the Word each
writes, as a number or bit by bit, and the statements that follow. -/

namespace Sys2Proof.Machine

/-- The immediate of `set` as a number (R83, R121). -/
theorem imm8_toNat (b a : Nibble) : (imm8 b a).toNat = 16 * b.toNat + a.toNat := by
  have hb := b.isLt
  have ha := a.isLt
  rw [imm8, BitVec.toNat_setWidth_of_le (by decide), BitVec.toNat_append, ← Nat.shiftLeft_add_eq_or_of_lt ha,
    Nat.shiftLeft_eq]
  omega

/-- Settles O15: `read_overflow` is one register write. -/
theorem readOverflowCopiesOv : Obligations.ReadOverflowCopiesOv :=
  fun s d b a => ⟨_, exec_readOverflow s d b a, s.setReg_writesOnlyReg d s.ov⟩

/-- Settles O16: `set` is one register write, of the immediate. -/
theorem setLoadsZeroExtendedImmediate : Obligations.SetLoadsZeroExtendedImmediate :=
  fun s d b a => ⟨_, _, exec_set s d b a, s.setReg_writesOnlyReg d _, imm8_toNat b a⟩

/-- Settles O27: `shift_left` is one register write, and a Word shifted left is multiplied modulo 2^16. -/
theorem shiftLeftMultipliesByPowerOfTwo : Obligations.ShiftLeftMultipliesByPowerOfTwo := by
  refine fun s d b a => ⟨_, _, exec_shiftLeft s d b a, s.setReg_writesOnlyReg d _, ?_⟩
  rw [BitVec.toNat_shiftLeft, Nat.shiftLeft_eq]

/-- Settles O28: `shift_right` is one register write, and a Word shifted right is divided. -/
theorem shiftRightDividesByPowerOfTwo : Obligations.ShiftRightDividesByPowerOfTwo := by
  refine fun s d b a => ⟨_, _, exec_shiftRight s d b a, s.setReg_writesOnlyReg d _, ?_⟩
  rw [BitVec.toNat_ushiftRight, Nat.shiftRight_eq_div_pow]

/-- Settles O29: each is one register write, of the bitwise connective. -/
theorem logicAndOrAreBitwise : Obligations.LogicAndOrAreBitwise :=
  fun s d b a =>
    ⟨⟨_, _, exec_logicAnd s d b a, s.setReg_writesOnlyReg d _, fun _ _ => BitVec.getLsbD_and⟩,
     ⟨_, _, exec_logicOr s d b a, s.setReg_writesOnlyReg d _, fun _ _ => BitVec.getLsbD_or⟩⟩

/-- Settles O30: one register write, of the complement. -/
theorem logicNotInvertsEveryBit : Obligations.LogicNotInvertsEveryBit := by
  refine fun s d b a => ⟨_, _, exec_logicNot s d b a, s.setReg_writesOnlyReg d _, BitVec.toNat_not, fun i hi => ?_⟩
  rw [BitVec.getLsbD_not, decide_eq_true hi, Bool.true_and]

end Sys2Proof.Machine
end

section
/-! SUPPORT. The four arithmetic instructions (spec/44_arithmetic.md R140 to R145): the two halves of a wide result as
numbers, the wide operations on widened operands, and the statements that follow. -/

namespace Sys2Proof.Machine

theorem widen_toNat (w : Word) : (widen w).toNat = w.toNat := BitVec.toNat_setWidth_of_le (by decide)

theorem lowHalf_toNat (r : Wide) : (lowHalf r).toNat = r.toNat % 65536 := by
  simp [lowHalf, BitVec.extractLsb'_toNat]

theorem highHalf_toNat (r : Wide) : (highHalf r).toNat = r.toNat / 65536 := by
  have hr := r.isLt
  rw [highHalf, BitVec.extractLsb'_toNat, Nat.shiftRight_eq_div_pow]
  omega

/-- A sum of two widened Words does not wrap (R140). -/
theorem widen_add_toNat (a b : Word) : (widen a + widen b).toNat = a.toNat + b.toNat := by
  have ha := a.isLt
  have hb := b.isLt
  rw [BitVec.toNat_add, widen_toNat, widen_toNat]
  omega

/-- A difference of two widened Words wraps exactly on a borrow (R141, D23). -/
theorem widen_sub_toNat (a b : Word) :
    (widen a - widen b).toNat = if a.toNat < b.toNat then 4294967296 + a.toNat - b.toNat else a.toNat - b.toNat := by
  have ha := a.isLt
  have hb := b.isLt
  rw [BitVec.toNat_sub, widen_toNat, widen_toNat]
  split <;> omega

/-- A product of two widened Words does not wrap (R142). -/
theorem widen_mul_toNat (a b : Word) : (widen a * widen b).toNat = a.toNat * b.toNat := by
  have hlt : a.toNat * b.toNat < 2 ^ 16 * 2 ^ 16 := Nat.mul_lt_mul'' a.isLt b.isLt
  rw [BitVec.toNat_mul, widen_toNat, widen_toNat, Nat.mod_eq_of_lt (by omega)]

/-- `DIV0_RESULT` on a zero divisor (R143). -/
theorem wideDiv_zero (r : Wide) : wideDiv r (widen 0#16) = 0xFFFFFFFF#32 := by
  simp [wideDiv, widen, Config.div0Result]

/-- The truncated quotient on any other (R143, D24). -/
theorem wideDiv_widen_toNat (a : Word) {b : Word} (hb : b ≠ 0#16) :
    (wideDiv (widen a) (widen b)).toNat = a.toNat / b.toNat := by
  have hwide : widen b ≠ 0#32 := by
    intro h
    refine hb (BitVec.eq_of_toNat_eq ?_)
    rw [← widen_toNat, h]
    rfl
  rw [wideDiv, if_neg hwide, BitVec.toNat_udiv, widen_toNat, widen_toNat]

/-- Settles O22: the halves of a sum below 2^17 are its residue and its carry. -/
theorem addGivesSumAndCarry : Obligations.AddGivesSumAndCarry := by
  intro s d b a
  have ha := (s.getReg a).isLt
  have hb := (s.getReg b).isLt
  refine ⟨_, _, _, exec_add s d b a, s.setWide_writesRegAndOv d _, ?_, ?_⟩
  · rw [lowHalf_toNat, widen_add_toNat]
  · rw [highHalf_toNat, widen_add_toNat]
    split <;> omega

/-- Settles O23: with a borrow the wide difference lies in the last 2^16 of its range, without one in the first. -/
theorem subtractGivesDifferenceAndBorrow : Obligations.SubtractGivesDifferenceAndBorrow := by
  intro s d b a
  have ha := (s.getReg a).isLt
  have hb := (s.getReg b).isLt
  refine ⟨_, _, _, exec_subtract s d b a, s.setWide_writesRegAndOv d _, ?_, ?_⟩
  · rw [lowHalf_toNat, widen_sub_toNat]
    split <;> omega
  · rw [highHalf_toNat, widen_sub_toNat]
    split <;> omega

/-- Settles O24: the halves of the product are its quotient and its residue by 2^16. -/
theorem multiplyGivesExactProduct : Obligations.MultiplyGivesExactProduct := by
  intro s d b a
  refine ⟨_, _, _, exec_multiply s d b a, s.setWide_writesRegAndOv d _, ?_⟩
  rw [highHalf_toNat, lowHalf_toNat, widen_mul_toNat, Nat.div_add_mod']

/-- Settles O25: a quotient fits the low half, and `DIV0_RESULT` fills both. -/
theorem divideGivesQuotient : Obligations.DivideGivesQuotient := by
  intro s d b a
  refine ⟨_, _, _, exec_divide s d b a, s.setWide_writesRegAndOv d _, fun h0 => ?_, fun h0 => ?_⟩
  · rw [h0, wideDiv_zero]
    decide
  · have hquot : (s.getReg a).toNat / (s.getReg b).toNat < 65536 :=
      Nat.lt_of_le_of_lt (Nat.div_le_self _ _) (s.getReg a).isLt
    refine ⟨?_, BitVec.eq_of_toNat_eq ?_⟩
    · rw [lowHalf_toNat, wideDiv_widen_toNat _ h0, Nat.mod_eq_of_lt hquot]
    · rw [highHalf_toNat, wideDiv_widen_toNat _ h0, Nat.div_eq_of_lt hquot]
      rfl

end Sys2Proof.Machine
end

section
/-! SUPPORT. The ports (spec/47_bus.md R190 to R194, spec/48_block_storage.md R212 to R217): what a read and a write of
each port answer, and the statements that follow. -/

namespace Sys2Proof.Machine

/-- A read of the halt port is a dash cell (R189, D8). -/
theorem State.busRead_of_halt {s : State} {p : Word} (h : s.portAt p = some .halt) : s.busRead p = (0#16, s) := by
  simp only [State.busRead, h, Config.defaultPortRead]

theorem State.busRead_of_disk {s : State} {p : Word} {d : DiskId} {q : DiskPort} (h : s.portAt p = some (.disk d q)) :
    s.busRead p = ((s.disk d).status q, s) := by
  simp only [State.busRead, h]

theorem State.busWrite_of_console {s : State} {p : Word} (v : Word) (h : s.portAt p = some .console) :
    s.busWrite p v = s.consoleWrite v := by
  simp only [State.busWrite, h]

theorem State.busWrite_of_halt {s : State} {p : Word} (v : Word) (h : s.portAt p = some .halt) :
    s.busWrite p v = s.haltWrite v := by
  simp only [State.busWrite, h]

/-- A write to the halt port as one update of the run state (R193). -/
theorem State.haltWrite_eq (s : State) (v : Word) :
    s.haltWrite v = { s with run := if v = 0#16 then s.run else .halted } := by
  by_cases hv : v = 0#16
  · rw [State.haltWrite, if_neg (not_not.2 hv), if_pos hv]
  · rw [State.haltWrite, if_pos hv, if_neg hv, State.haltRun]

/-- A write to a port of an inert slot changes nothing, a select included (R213, D28). -/
theorem State.diskWrite_of_inert {s : State} {d : DiskId} (v : Word) (q : DiskPort)
    (h : (s.disk d).attached = false) : s.diskWrite d v q = s := by
  cases q with
  | blockCount => rfl
  | selectedBlock => simp [State.diskWrite, State.diskSelectBlock, h]
  | transferAddress => simp [State.diskWrite, State.diskSelectAddress, h]
  | operation => exact s.diskOperation_dropped d v (.inl h)

/-- Every port of a well-formed inert slot reads 0 (R213). -/
theorem Disk.status_of_inert {k : Disk} (q : DiskPort) (h : k.attached = false) (hwf : k.wf) : k.status q = 0#16 := by
  simp only [Disk.wf, h, Bool.false_eq_true, if_false] at hwf
  obtain ⟨hcount, hblock, haddress, -⟩ := hwf
  cases q with
  | blockCount => exact hcount
  | selectedBlock => exact hblock
  | transferAddress => exact haddress
  | operation => rfl

/-- Settles O33: the byte is consumed, and then written to the destination alone. -/
theorem consoleReadTakesTheNextByte : Obligations.ConsoleReadTakesTheNextByte := by
  intro s d b a hport hin
  have hread := (State.busRead_of_console hport).trans (s.consoleRead_byte hin)
  exact ⟨_, _, by rw [exec_busRead, hread], BitVec.toNat_setWidth_of_le (by decide), rfl,
    State.setReg_writesOnlyReg _ d _⟩

/-- Settles O34: at end-of-stream the read leaves the state alone. -/
theorem consoleReadAtEndOfStream : Obligations.ConsoleReadAtEndOfStream :=
  fun s d b _ hport hend =>
    exec_busRead_writesOnlyReg d b ((State.busRead_of_console hport).trans (s.consoleRead_end hend))

/-- Settles O35: the write appends the low byte. -/
theorem consoleWriteEmitsLowByte : Obligations.ConsoleWriteEmitsLowByte := by
  intro s d b a hport
  refine ⟨_, _, exec_busWrite s d b a, ?_, State.busWrite_of_console _ hport, fun c => ?_⟩
  · rw [BitVec.extractLsb'_toNat, Nat.shiftRight_zero]
  · rw [State.busWrite_of_console _ hport]
    rfl

/-- Settles O36: the write changes the run state alone. -/
theorem haltPortWrite : Obligations.HaltPortWrite := by
  intro s d b a hport
  refine ⟨_, exec_busWrite s d b a, ?_⟩
  rw [State.busWrite_of_halt _ hport, s.haltWrite_eq]
  exact ⟨rfl, ⟨fun _ _ => rfl, rfl, rfl⟩, fun _ => rfl, ⟨rfl, rfl, rfl, rfl, rfl, rfl⟩⟩

/-- Settles O38: the dash cells read the default and ignore what is written (D8). -/
theorem dashCellsOfThePortTable : Obligations.DashCellsOfThePortTable := by
  intro s d b a k
  refine ⟨fun hport => ?_, fun hport => ?_⟩
  · rcases hport with hport | hport
    · exact exec_busRead_writesOnlyReg d b (State.busRead_of_halt hport)
    · exact exec_busRead_writesOnlyReg d b (State.busRead_of_disk hport)
  · rw [exec_busWrite, State.busWrite_of_disk _ hport]
    rfl

/-- Settles O39: each status port reads its component. -/
theorem statusPortsReadTheSlot : Obligations.StatusPortsReadTheSlot :=
  fun _ d b _ _ =>
    ⟨fun hport => exec_busRead_writesOnlyReg d b (State.busRead_of_disk hport),
     fun hport => exec_busRead_writesOnlyReg d b (State.busRead_of_disk hport),
     fun hport => exec_busRead_writesOnlyReg d b (State.busRead_of_disk hport)⟩

/-- Settles O40: on an attached slot each select replaces the slot by one with the Word stored. -/
theorem selectsStoreAnyWord : Obligations.SelectsStoreAnyWord := by
  intro s d b a k hattached
  refine ⟨fun hport => ⟨_, exec_busWrite s d b a, ?_⟩, fun hport => ⟨_, exec_busWrite s d b a, ?_⟩⟩
  · rw [State.busWrite_of_disk _ hport, State.diskWrite, State.diskSelectBlock, if_pos hattached]
    exact ⟨rfl, s.memRead_setDisk k _⟩
  · rw [State.busWrite_of_disk _ hport, State.diskWrite, State.diskSelectAddress, if_pos hattached]
    exact ⟨rfl, s.memRead_setDisk k _⟩

/-- Settles O41: an inert slot's ports ignore writes and read 0. -/
theorem inertSlotIsSafe : Obligations.InertSlotIsSafe := by
  intro s d b a k q hinert hport
  refine ⟨?_, fun hwf => exec_busRead_writesOnlyReg d b ?_⟩
  · rw [exec_busWrite, State.busWrite_of_disk _ hport, State.diskWrite_of_inert _ q hinert]
  · rw [State.busRead_of_disk hport, Disk.status_of_inert q hinert hwf]

/-- Settles O42: the two conditions under which an operation is dropped. -/
theorem invalidOperationsAreDropped : Obligations.InvalidOperationsAreDropped := by
  intro s d b a k hport hinvalid
  rw [exec_busWrite, State.busWrite_of_disk _ hport, State.diskWrite, s.diskOperation_dropped k _ (.inr ?_)]
  refine hinvalid.imp_right fun hrange => ?_
  rw [← Bool.not_eq_true, Disk.inRange_iff]
  exact Nat.not_lt.2 hrange

end Sys2Proof.Machine
end

section
/-! SUPPORT. The two slots side by side (spec/47_bus.md R194): an access to one leaves the other alone, and where both hold
the same, does to each what it would do to the other. -/

namespace Sys2Proof.Machine

/-- A write to a slot's port leaves the other slot alone (R194). -/
theorem State.diskWrite_disk_of_ne (s : State) {d e : DiskId} (v : Word) (q : DiskPort) (h : e ≠ d) :
    (s.diskWrite d v q).disk e = s.disk e := by
  cases q with
  | blockCount => rfl
  | selectedBlock =>
    rw [State.diskWrite, State.diskSelectBlock]
    split
    · rw [s.disk_setDisk, if_neg h]
    · rfl
  | transferAddress =>
    rw [State.diskWrite, State.diskSelectAddress]
    split
    · rw [s.disk_setDisk, if_neg h]
    · rfl
  | operation =>
    rw [State.diskWrite]
    rcases s.diskOperation_cases d v with hop | ⟨-, -, -, hop⟩ | ⟨-, -, -, hop⟩ <;> rw [hop]
    · rw [State.disk_endTransfer, State.disk_readBlock]
    · rw [State.disk_endTransfer, s.writeBlock_disk_of_ne _ h]

/-- `t` holds in slot `d` what `t'` holds in slot `e`, and agrees with it on memory and on the run state. -/
def State.AlikeAt (t : State) (d : DiskId) (t' : State) (e : DiskId) : Prop :=
  t.disk d = t'.disk e ∧ t.mem = t'.mem ∧ t.run = t'.run

/-- Putting the same slot in either place. -/
theorem State.alikeAt_setDisk (s : State) (d e : DiskId) (k : Disk) :
    State.AlikeAt (s.setDisk d k) d (s.setDisk e k) e := by
  refine ⟨?_, ?_, ?_⟩ <;> simp

theorem State.AlikeAt.endTransfer {t t' : State} {d e : DiskId} (h : State.AlikeAt t d t' e) (fails : Bool) :
    State.AlikeAt (t.endTransfer fails) d (t'.endTransfer fails) e := by
  obtain ⟨hdisk, hmem, hrun⟩ := h
  refine ⟨?_, ?_, ?_⟩ <;> simp [hdisk, hmem, hrun]

/-- Where both slots hold the same, an operation has the same effect on either (R194). -/
theorem State.diskOperation_alikeAt (s : State) {d e : DiskId} (v : Word) (h : s.disk e = s.disk d) :
    State.AlikeAt (s.diskOperation e v) e (s.diskOperation d v) d := by
  have hself : State.AlikeAt s e s d := ⟨h, rfl, rfl⟩
  have hread : State.AlikeAt (s.readBlock e s.landed) e (s.readBlock d s.landed) d := by
    refine ⟨by simp [h], ?_, by simp⟩
    rw [State.readBlock, State.readBlock, h]
  have hwrite : State.AlikeAt (s.writeBlock e s.landed) e (s.writeBlock d s.landed) d := by
    rw [State.writeBlock, State.writeBlock, h]
    exact s.alikeAt_setDisk e d _
  unfold State.diskOperation
  rw [h]
  split_ifs
  · exact hself
  · exact hself
  · exact hself
  · exact hread.endTransfer _
  · exact hwrite.endTransfer _

/-- Where both slots hold the same, a write to a port has the same effect on either (R194). -/
theorem State.diskWrite_alikeAt (s : State) {d e : DiskId} (v : Word) (q : DiskPort) (h : s.disk e = s.disk d) :
    State.AlikeAt (s.diskWrite e v q) e (s.diskWrite d v q) d := by
  have hself : State.AlikeAt s e s d := ⟨h, rfl, rfl⟩
  cases q with
  | blockCount => exact hself
  | selectedBlock =>
    rw [State.diskWrite, State.diskWrite, State.diskSelectBlock, State.diskSelectBlock, h]
    split
    · exact s.alikeAt_setDisk e d _
    · exact hself
  | transferAddress =>
    rw [State.diskWrite, State.diskWrite, State.diskSelectAddress, State.diskSelectAddress, h]
    split
    · exact s.alikeAt_setDisk e d _
    · exact hself
  | operation => exact s.diskOperation_alikeAt v h

/-- Settles O46: the routing is O58's, the isolation that each slot is hidden from the other's ports, the likeness
`diskWrite_alikeAt`, and the inert slot that of O41. -/
theorem theTwoSlotsShareNothing : Obligations.TheTwoSlotsShareNothing := by
  refine ⟨fun s hinj q => ⟨State.portAt_numberOf hinj (.disk .A q), State.portAt_numberOf hinj (.disk .B q)⟩,
    fun s p v k e q hport hne => ?_⟩
  have hread := State.busRead_of_disk hport
  have hwrite := State.busWrite_of_disk v hport
  refine ⟨⟨s.disk_busRead p e, ?_⟩, fun x => ?_, fun p' hport' halike => ?_, fun hinert hwf => ?_⟩
  · rw [hwrite, s.diskWrite_disk_of_ne v q hne]
  · have hhidden := State.setDisk_hiddenFromSlot hne x
    have hportx : (s.setDisk e x).portAt p = some (.disk k q) := by
      rw [State.portAt, s.setDisk_params]
      exact hport
    refine ⟨?_, ?_⟩
    · rw [State.busRead_of_disk hportx, hread, hhidden.disk]
    · rw [State.busWrite_of_disk v hportx, hwrite, hhidden.diskWrite]
  · rw [State.busRead_of_disk hport', hread, State.busWrite_of_disk v hport', hwrite, halike]
    exact ⟨rfl, s.diskWrite_alikeAt v q halike⟩
  · rw [hread, hwrite, Disk.status_of_inert q hinert hwf, State.diskWrite_of_inert v q hinert]
    exact ⟨rfl, rfl⟩

end Sys2Proof.Machine
end

section
/-! SUPPORT. The two block transfers (spec/48_block_storage.md R210, R221 to R225): the bytes and Words of the selected
block before and after, and the statements that follow. -/

namespace Sys2Proof.Machine

/-- A byte inside the store is what the store lists there. -/
theorem Disk.store_getElem? (k : Disk) {n : Nat} (h : n < k.store.length) : k.store[n]? = some (k.byteAt n) := by
  rw [Disk.byteAt, List.getElem?_eq_getElem h, List.getD_eq_getElem _ _ h]

theorem Disk.byteAt_of_getElem? {k : Disk} {n : Nat} {b : Byte} (h : k.store[n]? = some b) : k.byteAt n = b := by
  rw [Disk.byteAt, List.getD_eq_getElem?_getD, h, Option.getD_some]

/-- The offset of the selected block, its factor written as R221 writes it. -/
theorem Disk.base_eq (k : Disk) : k.base = k.selectedBlock.toNat * 512 := rfl

/-- Word `j` of the selected block is its bytes `2j` and `2j + 1` (R210). -/
theorem Disk.blockWord_eq (k : Disk) (j : Nat) :
    k.blockWord j = k.byteAt (k.base + 2 * j) ++ k.byteAt (k.base + (2 * j + 1)) := by
  rw [Disk.blockWord, Nat.add_assoc]

/-- The even bytes of a block a write-block stores are the Words' high bytes (R210). -/
theorem State.blockByte_even (s : State) (k : Disk) (j : Nat) :
    s.blockByte k (2 * j) = (s.memRead (k.wordAddress j)).extractLsb' 8 8 := by
  rw [State.blockByte, Nat.mul_div_cancel_left j (by decide), if_pos (Nat.mul_mod_right 2 j)]

/-- The odd bytes are their low bytes (R210). -/
theorem State.blockByte_odd (s : State) (k : Disk) (j : Nat) :
    s.blockByte k (2 * j + 1) = (s.memRead (k.wordAddress j)).extractLsb' 0 8 := by
  have hdiv : (2 * j + 1) / 2 = j := by omega
  have hmod : (2 * j + 1) % 2 ≠ 0 := by omega
  rw [State.blockByte, hdiv, if_neg hmod]

/-- A Word is its high byte before its low one. -/
theorem high_append_low (w : Word) : (w.extractLsb' 8 8 ++ w.extractLsb' 0 8 : Word) = w := by
  apply BitVec.eq_of_toNat_eq
  have hw := w.isLt
  have hlow : (w.extractLsb' 0 8).toNat < 2 ^ 8 := BitVec.isLt _
  rw [BitVec.toNat_append, ← Nat.shiftLeft_add_eq_or_of_lt hlow, BitVec.extractLsb'_toNat, BitVec.extractLsb'_toNat,
    Nat.shiftLeft_eq, Nat.shiftRight_eq_div_pow, Nat.shiftRight_zero]
  omega

/-- Byte `j` of the selected block after a write-block: the new one, if it landed (R222, R225). -/
theorem State.writeBlock_store_inside (s : State) (d : DiskId) (landed : Nat → Bool) {j : Nat} (hj : j < 512)
    (hinside : (s.disk d).base + 512 ≤ (s.disk d).store.length) :
    ((s.writeBlock d landed).disk d).store[(s.disk d).base + j]? =
      if landed j = true then some (s.blockByte (s.disk d) j) else (s.disk d).store[(s.disk d).base + j]? := by
  have hlt : (s.disk d).base + j < (s.disk d).store.length := by omega
  rw [s.writeBlock_store, (s.disk d).store_getElem? hlt, Option.map_some, State.storedByte, Nat.add_sub_cancel_left]
  by_cases hl : landed j = true
  · rw [if_pos ⟨Nat.le_add_right _ _, Nat.add_lt_add_left hj _, hl⟩, if_pos hl]
  · rw [if_neg fun h => hl h.2.2, if_neg hl]

/-- A block a trigger selects lies inside its store. -/
theorem State.Triggers.inside {s : State} {i : Instr} {k : DiskId} {v : Word} (h : s.Triggers i k v)
    (hwf : (s.disk k).wf) : (s.disk k).base + 512 ≤ (s.disk k).store.length := by
  obtain ⟨-, -, -, -, -, -, hattached, hrange⟩ := h
  exact Disk.base_inside _ hattached hwf hrange

/-- Word `j` of the selected block after a write-block whose transfer succeeds (R222). -/
theorem State.writeBlock_blockWord (s : State) (d : DiskId) {j : Nat} (hj : j < 256)
    (hinside : (s.disk d).base + 512 ≤ (s.disk d).store.length) (hok : s.storeFails = false) :
    ((s.writeBlock d s.landed).disk d).blockWord j = s.memRead ((s.disk d).wordAddress j) := by
  have hbyte : ∀ i < 512, ((s.writeBlock d s.landed).disk d).byteAt ((s.disk d).base + i) =
      s.blockByte (s.disk d) i := by
    intro i hi
    refine Disk.byteAt_of_getElem? ?_
    rw [s.writeBlock_store_inside d _ hi hinside, if_pos (s.landed_of_not_fails hok i)]
  have hbase : ((s.writeBlock d s.landed).disk d).base = (s.disk d).base := by
    rw [s.writeBlock_disk_self]
    rfl
  rw [Disk.blockWord_eq, hbase, hbyte _ (by omega), hbyte _ (by omega), s.blockByte_even,
    s.blockByte_odd, high_append_low]

/-- A Word no address of the transfer names survives a read-block (R221). -/
theorem State.memRead_readBlock_of_not_covers (s : State) (d : DiskId) (landed : Nat → Bool) {c : Word}
    (h : ¬ (s.disk d).Covers c) : (s.readBlock d landed).memRead c = s.memRead c :=
  s.memRead_readBlock_keeps d landed c fun i hi _ hc => absurd ⟨i, hi, hc⟩ h

/-- A firmware Word survives a read-block (R223, D15). -/
theorem State.memRead_readBlock_firmware (s : State) (d : DiskId) (landed : Nat → Bool) {c : Word}
    (h : c.toNat < s.params.firmwareSize) : (s.readBlock d landed).memRead c = s.memRead c :=
  s.memRead_readBlock_keeps d landed c fun _ _ _ _ => h

/-- Each addressed Word holds the old or the block's Word after a read-block, whatever landed (R225). -/
theorem State.memRead_readBlock_old_or_new (s : State) (d : DiskId) (landed : Nat → Bool) {j : Nat} (hj : j < 256) :
    (s.readBlock d landed).memRead ((s.disk d).wordAddress j) = s.memRead ((s.disk d).wordAddress j) ∨
    (s.readBlock d landed).memRead ((s.disk d).wordAddress j) = (s.disk d).blockWord j := by
  by_cases hnew : landed j = true ∧ s.params.firmwareSize ≤ ((s.disk d).wordAddress j).toNat
  · obtain ⟨hl, hge⟩ := hnew
    exact .inr (s.memRead_readBlock_word d landed j hj hl hge)
  · refine .inl (s.memRead_readBlock_keeps d landed _ fun i hi hl heq => ?_)
    have hij : j = i := (s.disk d).wordAddress_inj j i (by omega) (by omega) heq
    by_contra hge
    exact hnew ⟨hij ▸ hl, Nat.not_lt.1 hge⟩

/-- A read-block reaches no register, neither `ov` nor `pc` (R221). -/
theorem State.readBlock_keepsCore (s : State) (d : DiskId) (landed : Nat → Bool) :
    s.KeepsCore (s.readBlock d landed) := by
  obtain ⟨m, h⟩ := s.readBlock_eq d landed
  rw [h]
  exact ⟨fun _ _ => rfl, rfl, rfl⟩

/-- Settles O43: the instruction is a read-block, whose Words the laws of `readBlock` give, and its end. -/
theorem readBlockMovesStoreToMemory : Obligations.ReadBlockMovesStoreToMemory := by
  intro s i k htrig hwf
  have hinside := htrig.inside hwf
  obtain ⟨hregs, hov, hpc⟩ := s.readBlock_keepsCore k s.landed
  refine ⟨_, exec_of_triggers_read htrig, fun hok => ⟨by simp [hok], fun j hj hge => ?_⟩, fun hfail => by simp [hfail],
    fun c hc => ?_, fun c hc => ?_, ?_, ?_, ⟨?_, ?_, ?_⟩, ?_, ?_, ?_⟩
  · have hbyte : ∀ n < 512, (s.disk k).store[(s.disk k).base + n]? = some ((s.disk k).byteAt ((s.disk k).base + n)) :=
      fun n hn => (s.disk k).store_getElem? (by omega)
    rw [← Disk.base_eq, Nat.add_assoc]
    refine ⟨_, _, hbyte (2 * j) (by omega), hbyte (2 * j + 1) (by omega), ?_⟩
    rw [State.memRead_endTransfer, ← Disk.blockWord_eq]
    exact s.memRead_readBlock_word k _ j hj (s.landed_of_not_fails hok j) hge
  · rw [State.memRead_endTransfer, s.memRead_readBlock_of_not_covers k _ hc]
  · rw [State.memRead_endTransfer, s.memRead_readBlock_firmware k _ hc]
  · rw [State.endTransfer_diskA]
    exact s.disk_readBlock k _ .A
  · rw [State.endTransfer_diskB]
    exact s.disk_readBlock k _ .B
  · intro r hr
    rw [State.getReg_endTransfer, hregs r hr]
  · rw [State.endTransfer_ov, hov]
  · rw [State.endTransfer_pc, hpc]
  · rw [State.endTransfer_params, s.readBlock_params]
  · rw [State.endTransfer_conInPos, s.readBlock_conInPos]
  · rw [State.endTransfer_conOut, s.readBlock_conOut]

/-- Settles O44: the instruction is a write-block, whose bytes the laws of `writeBlock` give, and its end. -/
theorem writeBlockMovesMemoryToStore : Obligations.WriteBlockMovesMemoryToStore := by
  intro s i k htrig hwf
  have hinside := htrig.inside hwf
  refine ⟨_, exec_of_triggers_write htrig, fun hok => ⟨by simp [hok], fun j hj => ?_⟩, fun hfail => by simp [hfail],
    fun n hn => ?_, ?_, ?_, ?_, fun e he => ?_, fun a => ?_⟩
  · have hbyte : ∀ n < 512, ((s.writeBlock k s.landed).disk k).store[(s.disk k).base + n]? =
        some (s.blockByte (s.disk k) n) := by
      intro n hn
      rw [s.writeBlock_store_inside k _ hn hinside, if_pos (s.landed_of_not_fails hok n)]
    rw [State.disk_endTransfer, ← Disk.base_eq, Nat.add_assoc, hbyte _ (by omega), hbyte _ (by omega),
      s.blockByte_even, s.blockByte_odd]
    exact ⟨rfl, rfl⟩
  · rw [State.disk_endTransfer]
    exact s.writeBlock_store_outside k _ hn
  · simp [State.writeBlock]
  · rw [State.endTransfer_eq, State.writeBlock]
    cases k <;> rfl
  · rw [State.disk_endTransfer, s.writeBlock_disk_self]
  · rw [State.disk_endTransfer, s.writeBlock_disk_of_ne _ he]
  · rw [State.memRead_endTransfer, s.memRead_writeBlock]

/-- Settles O45: what landed is old or new, cell by cell, whichever cells the free value names. -/
theorem failedTransferIsFatal : Obligations.FailedTransferIsFatal := by
  intro s i k v htrig hwf hfail
  refine ⟨?_, ?_⟩
  · rintro rfl
    refine ⟨_, exec_of_triggers_read htrig, ?_, fun c hc => ?_, fun j hj => ?_⟩
    · obtain ⟨m, hm⟩ := s.readBlock_eq k s.landed
      rw [hfail, State.endTransfer_true, hm]
    · rw [State.memRead_endTransfer, s.memRead_readBlock_of_not_covers k _ hc]
    · rw [State.memRead_endTransfer]
      exact s.memRead_readBlock_old_or_new k _ hj
  · rintro rfl
    have hinside := htrig.inside hwf
    refine ⟨_, ((s.writeBlock k s.landed).disk k).store, exec_of_triggers_write htrig, ?_, ?_, fun n hn => ?_,
      fun j hj => ?_⟩
    · rw [hfail, State.endTransfer_true, s.writeBlock_disk_self, State.writeBlock]
      cases k <;> rfl
    · simp [State.writeBlock]
    · exact s.writeBlock_store_outside k _ hn
    · rw [s.writeBlock_store_inside k _ hj hinside]
      split
      · exact .inr rfl
      · exact .inl rfl

/-- A firmware Word reads alike in two states of the same parameters (R53). -/
theorem State.memRead_congr_of_firmware {s r : State} {a : Word} (hparams : r.params = s.params)
    (h : a.toNat < s.params.firmwareSize) : r.memRead a = s.memRead a := by
  have hlt : a.toNat < s.params.firmware.length := h
  unfold State.memRead
  rw [hparams, dif_pos hlt, dif_pos hlt]

/-- A read-block brings back the Words that a write-block stored, in any state `r` whose slot still holds them; a firmware
Word never left (R218, R223). -/
theorem State.readBlock_restores {s r : State} {k : DiskId} (hparams : r.params = s.params)
    (hdisk : r.disk k = (s.writeBlock k s.landed).disk k)
    (hinside : (s.disk k).base + 512 ≤ (s.disk k).store.length) (hok : s.storeFails = false)
    (hok' : r.storeFails = false) {n : Nat} (hn : n < 256) :
    (r.readBlock k r.landed).memRead ((s.disk k).wordAddress n) = s.memRead ((s.disk k).wordAddress n) := by
  have haddr : (s.disk k).wordAddress n = (r.disk k).wordAddress n := by
    rw [hdisk, s.writeBlock_disk_self]
    rfl
  by_cases hfw : ((s.disk k).wordAddress n).toNat < s.params.firmwareSize
  · have hfw' : ((s.disk k).wordAddress n).toNat < r.params.firmwareSize := by rwa [hparams]
    rw [r.memRead_readBlock_firmware k _ hfw', State.memRead_congr_of_firmware hparams hfw]
  · have hge : r.params.firmwareSize ≤ ((r.disk k).wordAddress n).toNat := by
      rw [hparams, ← haddr]
      exact Nat.not_lt.1 hfw
    rw [← s.writeBlock_blockWord k hn hinside hok, ← hdisk, haddr]
    exact r.memRead_readBlock_word k _ n hn (r.landed_of_not_fails hok' n) hge

/-- Settles O47: replacing memory leaves the parameters and the slot as the write-block left them. -/
theorem storageRoundTrip : Obligations.StorageRoundTrip := by
  intro s t i j k m htrig hwf hok hexec htrig' hok'
  obtain rfl : (s.writeBlock k s.landed).endTransfer s.storeFails = t := by
    rw [exec_of_triggers_write htrig] at hexec
    cases hexec
    rfl
  generalize hr : { (s.writeBlock k s.landed).endTransfer s.storeFails with mem := m } = r at htrig' ⊢
  have hparams : r.params = s.params := by simp [← hr, State.writeBlock]
  have hsucceeds : r.storeFails = false := by
    rw [← hr]
    exact hok'
  have hdisk : r.disk k = (s.writeBlock k s.landed).disk k :=
    calc r.disk k = ((s.writeBlock k s.landed).endTransfer s.storeFails).disk k :=
          State.disk_congr _ _ (by rw [← hr]) (by rw [← hr]) k
      _ = (s.writeBlock k s.landed).disk k := State.disk_endTransfer _ _ k
  refine ⟨_, exec_of_triggers_read htrig', fun n hn => ?_⟩
  rw [State.memRead_endTransfer]
  exact State.readBlock_restores hparams hdisk (htrig.inside hwf) hok hsucceeds hn

end Sys2Proof.Machine
end

section
/-! SUPPORT. Reset (spec/70_reset_and_hazards.md R261 to R264, spec/10_state.md R34): the state and the memory that a
launch constructs, the invariant in it, and the statements that follow. -/

namespace Sys2Proof.Machine

/-- Attach leaves a well-formed slot (R211). -/
theorem Disk.attach_wf (store : Option (List Byte)) : (Disk.attach store).wf := by
  cases store with
  | none => exact ⟨rfl, rfl, rfl, rfl⟩
  | some bytes => rfl

/-- The constructed state of every valid launch meets the invariant. -/
theorem State.construct_inv {l : Launch} (h : l.Valid) : (State.construct l).Inv := by
  obtain ⟨hfirmware, himage, hports⟩ := h
  exact
    { memory := Memory.wf_ofImage l.initImage
      inside := fun e he => by
        obtain ⟨-, hlt, -⟩ := Memory.mem_ofWordsFrom l.initImage 0 e he
        change l.params.firmwareSize + e.1 < Config.addrSpace
        unfold Launch.ImageFits at himage
        omega
      firmware := hfirmware
      ports := hports
      slots := fun d => by
        cases d
        · exact Disk.attach_wf l.storeA
        · exact Disk.attach_wf l.storeB
      console := Nat.zero_le _
      noDecodeError := nofun }

/-- Settles O54: the `require` lines are `Launch.Valid`, and `construct_inv` derives the invariant from them. -/
theorem everyValidLaunchMeetsTheInvariant : Obligations.EveryValidLaunchMeetsTheInvariant :=
  fun _ hvalid => ⟨if_pos hvalid, State.construct_inv hvalid⟩

/-- Settles O53: the default launch is valid. -/
theorem resetMeetsTheInvariant : Obligations.ResetMeetsTheInvariant :=
  State.construct_inv (l := Launch.default) (by decide)

/-- Settles O55: `boot` tests the `require` lines. -/
theorem invalidLaunchIsRefused : Obligations.InvalidLaunchIsRefused :=
  fun _ hinvalid => if_neg hinvalid

/-- Settles O56: the fields of `construct`, and of `attach` with and without a store. -/
theorem stateAfterReset : Obligations.StateAfterReset := by
  intro l
  have hselects : ∀ store, (Disk.attach store).selectedBlock = 0#16 ∧ (Disk.attach store).transferAddress = 0#16 := by
    intro store
    cases store <;> exact ⟨rfl, rfl⟩
  have hpresent : ∀ bytes : List Byte, (Disk.attach (some bytes)).store = bytes ∧
      (Disk.attach (some bytes)).blockCount.toNat = min (bytes.length / 512) 0xFFFF :=
    fun bytes => ⟨rfl, Disk.countOf_toNat bytes.length⟩
  refine ⟨rfl, rfl, fun r => ?_, rfl, rfl, rfl, fun k => ?_, fun bytes hA => ?_, fun hA => ?_, fun bytes hB => ?_,
    fun hB => ?_⟩
  · exact Vector.getElem_replicate _
  · cases k
    · exact hselects l.storeA
    · exact hselects l.storeB
  · rw [State.construct, hA]
    exact hpresent bytes
  · rw [State.construct, hA]
    rfl
  · rw [State.construct, hB]
    exact hpresent bytes
  · rw [State.construct, hB]
    rfl

/-- Above the firmware, memory after reset is the image and then the reset Word (R263, D17). -/
theorem State.construct_memRead (l : Launch) {a : Word} {n : Nat} (h : a.toNat = l.params.firmware.length + n) :
    (State.construct l).memRead a = l.initImage.getD n 0#16 := by
  have hge : (State.construct l).params.firmwareSize ≤ a.toNat := h ▸ Nat.le_add_right _ n
  rw [State.memRead_mutable _ a hge, h]
  change (Memory.ofImage l.initImage).read (l.params.firmware.length + n - l.params.firmware.length) = _
  rw [Nat.add_sub_cancel_left, Memory.read_ofImage]
  rfl

/-- Settles O57: the three ranges of the address space. -/
theorem memoryAfterReset : Obligations.MemoryAfterReset := by
  intro l a
  refine ⟨(State.construct l).memRead_firmware a, fun n ha hn => ?_, fun ha => ?_⟩
  · rw [State.construct_memRead l ha, List.getD_eq_getElem _ _ hn]
  · obtain ⟨n, hn⟩ := Nat.exists_eq_add_of_le (Nat.le_trans (Nat.le_add_right _ l.initImage.length) ha)
    rw [State.construct_memRead l hn, List.getD_eq_default _ _ (by omega)]

end Sys2Proof.Machine
end
